-- ==== Sys2Proof/Word.lean ====
section
/-! DEFINITION. The word and byte types of the machine (00_scope.md R5, R6, R7). -/

namespace Sys2Proof

/-- The one data size of the hardware: a register value, a memory word or an address (R5, R7, R14).
`+` on it is addition modulo 2^16 and no carry or overflow exists. -/
abbrev Word := BitVec 16

/-- A character as the I/O provider carries it (10_state.md R37). -/
abbrev Byte := BitVec 8

end Sys2Proof
end

