-- ==== Sys2Proof/Config.lean ====
section
/-! DEFINITION. The parameters of the hardware (00_scope.md R5): what the spec tells a model to take as a named
configuration field with a default, and the constants the source fixes. The machine of `core` has the defaults;
the operations that depend on a parameter take a `Config`, so that a claim can range over every one, and `execWith`, `stepWith`, `moves` and `hostRun` run the machine under any. -/

namespace Sys2Proof

/-- The three condition flags, of which exactly one is active (10_state.md R28); the argument of the host's
`setFlags` (70_reset_and_hazards.md R207). -/
inductive Flag where
  | n
  | z
  | p
  deriving DecidableEq, Repr

/-- What the host's loader does where R204 leaves it open: R5's default for `LOADER` is OPEN (decision D25), so no value
of it is known (log entry 10). -/
opaque openLoader : List (List Byte) → Option (List (Word × Word))

/-- The rows of R5 that the spec marks as a decision to be taken as a configuration field, with its defaults. -/
structure Config where
  /-- `PC_RESET` (decision D6). -/
  pcReset : Word := 0x3000#16
  /-- `GPR_RESET`, for each of R0..R7 (decision D5). -/
  gprReset : Word := 0x0000#16
  /-- `COND_RESET` (decision D7). -/
  condReset : Flag := .z
  /-- `IN_PROMPT`: the bytes the IN service writes when its step is taken (decision D14). -/
  inPrompt : List Byte := []
  /-- `IN_ECHO`: whether the IN service writes the character back (decision D14). -/
  inEcho : Bool := false
  /-- `JSRR_LINK_FIRST`: whether JSRR writes R7 before it reads the base register (93_implementation_defined.md U9). -/
  jsrrLinkFirst : Bool := true
  /-- The opcode numbers (decision D2): the row position, in the source's table of sixteen opcodes, of the opcode that
  the number in bits 15..12 stands for. The default is that the number is the row position (30_encoding.md R81). -/
  opcodeRow : BitVec 4 → BitVec 4 := fun number => number
  /-- `LOADER` (decision D25): for a list of images whose loading R204 leaves open, the writes that the host's loader
  makes, in order, each an address and a word; `none` where it loads nothing. -/
  loader : List (List Byte) → Option (List (Word × Word)) := openLoader

/-- Every parameter at the default of R5. -/
def Config.standard : Config := {}

/-- `MEM_WORDS` (R5). -/
def memWords : Nat := 65536

/-- KBSR, the keyboard status register's address (20_memory.md R53). -/
def kbsr : Word := 0xFE00#16

/-- KBDR, the keyboard data register's address (20_memory.md R54). -/
def kbdr : Word := 0xFE02#16

/-- The service vectors of TRAP and the HALT vector (R5; 43_system.md R153). -/
def vectGetc : Word := 0x0020#16
/-- OUT (R5, R157). -/
def vectOut : Word := 0x0021#16
/-- PUTS (R5, R158). -/
def vectPuts : Word := 0x0022#16
/-- IN (R5, R159). -/
def vectIn : Word := 0x0023#16
/-- `HALT_VECTOR`, fixed by decision D12 (R5, R154). -/
def vectHalt : Word := 0x0025#16

end Sys2Proof
end

