-- ==== Sys2Proof/Syntax.lean ====
section
/-! DEFINITION. The instructions: one constructor per row of spec/opcode_table.json, in the table's order. A field
is what the row's format names (30_encoding.md R85 to R96); bits no format names are no part of an instruction (R84). -/

namespace Sys2Proof

/-- The eight general registers a 3-bit register field selects (R83). -/
inductive Reg where
  | r0
  | r1
  | r2
  | r3
  | r4
  | r5
  | r6
  | r7
  deriving DecidableEq, Repr

/-- The nineteen instruction forms of R85. -/
inductive Instr where
  /-- BR, format F-BR (R86). -/
  | br (n z p : Bool) (off9 : BitVec 9)
  /-- ADD, register form, format F-OPR (R87). -/
  | addReg (dr sr1 sr2 : Reg)
  /-- ADD, immediate form, format F-OPI (R88). -/
  | addImm (dr sr1 : Reg) (imm5 : BitVec 5)
  /-- LD, format F-PC9 (R89). -/
  | ld (dr : Reg) (off9 : BitVec 9)
  /-- ST, format F-PC9 (R89). -/
  | st (sr : Reg) (off9 : BitVec 9)
  /-- JSR, format F-JSR (R90). -/
  | jsr (off11 : BitVec 11)
  /-- JSRR, format F-JSRR (R91). -/
  | jsrr (baseR : Reg)
  /-- AND, register form, format F-OPR (R87). -/
  | andReg (dr sr1 sr2 : Reg)
  /-- AND, immediate form, format F-OPI (R88). -/
  | andImm (dr sr1 : Reg) (imm5 : BitVec 5)
  /-- LDR, format F-BO6 (R92). -/
  | ldr (dr baseR : Reg) (off6 : BitVec 6)
  /-- STR, format F-BO6 (R92). -/
  | str (sr baseR : Reg) (off6 : BitVec 6)
  /-- RTI, format F-NONE (R96). -/
  | rti
  /-- NOT, format F-NOT (R94). -/
  | not (dr sr : Reg)
  /-- LDI, format F-PC9 (R89). -/
  | ldi (dr : Reg) (off9 : BitVec 9)
  /-- STI, format F-PC9 (R89). -/
  | sti (sr : Reg) (off9 : BitVec 9)
  /-- JMP, format F-JMP (R93); `baseR = r7` is RET (R103). -/
  | jmp (baseR : Reg)
  /-- RES, the reserved opcode, format F-NONE (R96). -/
  | res
  /-- LEA, format F-PC9 (R89). -/
  | lea (dr : Reg) (off9 : BitVec 9)
  /-- TRAP, format F-TRAP (R95). -/
  | trap (vect8 : BitVec 8)
  deriving DecidableEq, Repr

/-- The names of the nineteen forms, without their operands (R85). -/
inductive Form where
  | br
  | addReg
  | addImm
  | ld
  | st
  | jsr
  | jsrr
  | andReg
  | andImm
  | ldr
  | str
  | rti
  | not
  | ldi
  | sti
  | jmp
  | res
  | lea
  | trap
  deriving DecidableEq, Repr

/-- Which form an instruction is of. -/
def Instr.form : Instr → Form
  | .br _ _ _ _ => .br
  | .addReg _ _ _ => .addReg
  | .addImm _ _ _ => .addImm
  | .ld _ _ => .ld
  | .st _ _ => .st
  | .jsr _ => .jsr
  | .jsrr _ => .jsrr
  | .andReg _ _ _ => .andReg
  | .andImm _ _ _ => .andImm
  | .ldr _ _ _ => .ldr
  | .str _ _ _ => .str
  | .rti => .rti
  | .not _ _ => .not
  | .ldi _ _ => .ldi
  | .sti _ _ => .sti
  | .jmp _ => .jmp
  | .res => .res
  | .lea _ _ => .lea
  | .trap _ => .trap

end Sys2Proof
end

