-- ==== Sys2Proof/WellFormed.lean ====
section
/-! DEFINITION. Well-formedness. An `Instr` cannot be built with a field out of range: its fields have the widths of
30_encoding.md R85 and R97, so every `Instr` is well formed. What can be ill formed is a WORD as the spelling of a
form: its fixed bits may be another row's, and its unnamed bits may differ from the conventional ones (R84, R85). -/

namespace Sys2Proof

/-- The fixed bits of a row, as spec/opcode_table.json's `mask` gives them. -/
def Form.mask : Form → Word
  | .br => 0xF000#16
  | .addReg => 0xF020#16
  | .addImm => 0xF020#16
  | .ld => 0xF000#16
  | .st => 0xF000#16
  | .jsr => 0xF800#16
  | .jsrr => 0xF800#16
  | .andReg => 0xF020#16
  | .andImm => 0xF020#16
  | .ldr => 0xF000#16
  | .str => 0xF000#16
  | .rti => 0xF000#16
  | .not => 0xF000#16
  | .ldi => 0xF000#16
  | .sti => 0xF000#16
  | .jmp => 0xF000#16
  | .res => 0xF000#16
  | .lea => 0xF000#16
  | .trap => 0xF000#16

/-- The values of the fixed bits, as spec/opcode_table.json's `match` gives them. -/
def Form.pattern : Form → Word
  | .br => 0x0000#16
  | .addReg => 0x1000#16
  | .addImm => 0x1020#16
  | .ld => 0x2000#16
  | .st => 0x3000#16
  | .jsr => 0x4800#16
  | .jsrr => 0x4000#16
  | .andReg => 0x5000#16
  | .andImm => 0x5020#16
  | .ldr => 0x6000#16
  | .str => 0x7000#16
  | .rti => 0x8000#16
  | .not => 0x9000#16
  | .ldi => 0xA000#16
  | .sti => 0xB000#16
  | .jmp => 0xC000#16
  | .res => 0xD000#16
  | .lea => 0xE000#16
  | .trap => 0xF000#16

/-- The unnamed bits of each form, listed by R84: ADD and AND register form `[4:3]`, NOT `[5:0]`, JMP `[11:9]` and
`[5:0]`, JSRR `[10:9]` and `[5:0]`, TRAP `[11:8]`, RTI and RES `[11:0]`. -/
def Form.unnamed : Form → Word
  | .br => 0x0000#16
  | .addReg => 0x0018#16
  | .addImm => 0x0000#16
  | .ld => 0x0000#16
  | .st => 0x0000#16
  | .jsr => 0x0000#16
  | .jsrr => 0x063F#16
  | .andReg => 0x0018#16
  | .andImm => 0x0000#16
  | .ldr => 0x0000#16
  | .str => 0x0000#16
  | .rti => 0x0FFF#16
  | .not => 0x003F#16
  | .ldi => 0x0000#16
  | .sti => 0x0000#16
  | .jmp => 0x0E3F#16
  | .res => 0x0FFF#16
  | .lea => 0x0000#16
  | .trap => 0x0F00#16

/-- The conventional values of the unnamed bits: 0 in each of them except NOT `[5:0]`, which is `111111` (R84). -/
def Form.conventional : Form → Word
  | .not => 0x003F#16
  | _ => 0x0000#16

/-- The word's fixed bits are those of the row. -/
def Form.fits (f : Form) (w : Word) : Bool := w &&& f.mask == f.pattern

/-- The word is a conventional spelling of the form: its fixed bits are the row's and its unnamed bits the
conventional ones. -/
def Form.spells (f : Form) (w : Word) : Bool := f.fits w && (w &&& f.unnamed == f.conventional)

/-- Every instruction is well formed: the types of its fields leave nothing to check (R82, R97). -/
def Instr.wellFormed (_ : Instr) : Bool := true

end Sys2Proof
end

