-- ==== Sys2Proof/Decode.lean ====
section
/-! DEFINITION. The decoder (30_encoding.md R81 to R96), total on all 65536 words and without a failure mode (R82),
and the encoder, written from the same formats. -/

namespace Sys2Proof

/-- The `len` bits of a word from bit `lo` upwards, `w[lo+len-1 : lo]` (00_scope.md R6). -/
def field (lo len : Nat) (w : Word) : BitVec len := w.extractLsb' lo len

/-- The single bit `w[i]` (R6). -/
def bitOf (i : Nat) (w : Word) : Bool := w.getLsbD i

/-- A 3-bit register field of value `i` names `Ri` (R83). -/
def Reg.ofBits (b : BitVec 3) : Reg :=
  match b.toNat with
  | 0 => .r0
  | 1 => .r1
  | 2 => .r2
  | 3 => .r3
  | 4 => .r4
  | 5 => .r5
  | 6 => .r6
  | _ => .r7

/-- The 3-bit field that names a register (R83). -/
def Reg.bits : Reg → BitVec 3
  | .r0 => 0#3
  | .r1 => 1#3
  | .r2 => 2#3
  | .r3 => 3#3
  | .r4 => 4#3
  | .r5 => 5#3
  | .r6 => 6#3
  | .r7 => 7#3

/-- The register field at `[11:9]` (R83). -/
def regHi (w : Word) : Reg := .ofBits (field 9 3 w)

/-- The register field at `[8:6]` (R83). -/
def regMid (w : Word) : Reg := .ofBits (field 6 3 w)

/-- The register field at `[2:0]` (R83). -/
def regLo (w : Word) : Reg := .ofBits (field 0 3 w)

/-- R82: only the fields that the opcode defines are extracted. The opcode is given by its row position in the table of
R81; the last arm is row 15. -/
def decodeRow (row : BitVec 4) (w : Word) : Instr :=
  match row.toNat with
  | 0 => .br (bitOf 11 w) (bitOf 10 w) (bitOf 9 w) (field 0 9 w)
  | 1 => if bitOf 5 w then .addImm (regHi w) (regMid w) (field 0 5 w) else .addReg (regHi w) (regMid w) (regLo w)
  | 2 => .ld (regHi w) (field 0 9 w)
  | 3 => .st (regHi w) (field 0 9 w)
  | 4 => if bitOf 11 w then .jsr (field 0 11 w) else .jsrr (regMid w)
  | 5 => if bitOf 5 w then .andImm (regHi w) (regMid w) (field 0 5 w) else .andReg (regHi w) (regMid w) (regLo w)
  | 6 => .ldr (regHi w) (regMid w) (field 0 6 w)
  | 7 => .str (regHi w) (regMid w) (field 0 6 w)
  | 8 => .rti
  | 9 => .not (regHi w) (regMid w)
  | 10 => .ldi (regHi w) (field 0 9 w)
  | 11 => .sti (regHi w) (field 0 9 w)
  | 12 => .jmp (regMid w)
  | 13 => .res
  | 14 => .lea (regHi w) (field 0 9 w)
  | _ => .trap (field 0 8 w)

/-- R81 and R82: the opcode number is `[15:12]`, and it is the row position (decision D2). -/
def decode (w : Word) : Instr := decodeRow (field 12 4 w) w

/-- The decoder under the opcode numbers of a configuration (decision D2). -/
def decodeWith (c : Config) (w : Word) : Instr := decodeRow (c.opcodeRow (field 12 4 w)) w

/-- A field's bits placed in a word from bit `lo` upwards. -/
def place {n : Nat} (lo : Nat) (v : BitVec n) : Word := v.setWidth 16 <<< lo

/-- The conventional word of an instruction, format by format (R85): the fixed bits, then each field at its place.
Unnamed bits are 0, and 1 in NOT `[5:0]` (R84). -/
def encode : Instr → Word
  | .br n z p off9 =>
    0x0000#16 ||| place 11 (.ofBool n) ||| place 10 (.ofBool z) ||| place 9 (.ofBool p) ||| place 0 off9
  | .addReg dr sr1 sr2 => 0x1000#16 ||| place 9 dr.bits ||| place 6 sr1.bits ||| place 0 sr2.bits
  | .addImm dr sr1 imm5 => 0x1020#16 ||| place 9 dr.bits ||| place 6 sr1.bits ||| place 0 imm5
  | .ld dr off9 => 0x2000#16 ||| place 9 dr.bits ||| place 0 off9
  | .st sr off9 => 0x3000#16 ||| place 9 sr.bits ||| place 0 off9
  | .jsr off11 => 0x4800#16 ||| place 0 off11
  | .jsrr baseR => 0x4000#16 ||| place 6 baseR.bits
  | .andReg dr sr1 sr2 => 0x5000#16 ||| place 9 dr.bits ||| place 6 sr1.bits ||| place 0 sr2.bits
  | .andImm dr sr1 imm5 => 0x5020#16 ||| place 9 dr.bits ||| place 6 sr1.bits ||| place 0 imm5
  | .ldr dr baseR off6 => 0x6000#16 ||| place 9 dr.bits ||| place 6 baseR.bits ||| place 0 off6
  | .str sr baseR off6 => 0x7000#16 ||| place 9 sr.bits ||| place 6 baseR.bits ||| place 0 off6
  | .rti => 0x8000#16
  | .not dr sr => 0x903F#16 ||| place 9 dr.bits ||| place 6 sr.bits
  | .ldi dr off9 => 0xA000#16 ||| place 9 dr.bits ||| place 0 off9
  | .sti sr off9 => 0xB000#16 ||| place 9 sr.bits ||| place 0 off9
  | .jmp baseR => 0xC000#16 ||| place 6 baseR.bits
  | .res => 0xD000#16
  | .lea dr off9 => 0xE000#16 ||| place 9 dr.bits ||| place 0 off9
  | .trap vect8 => 0xF000#16 ||| place 0 vect8

/-- The instruction the decoder reads from an instruction of `nbits` bits whose bits are `w`. Every instruction is one
16-bit word (R80), so bits the table leaves out above `nbits` are 0 and more than 16 bits are no instruction (R100). -/
def decodeTableWord (nbits w : Nat) : Option Instr :=
  if nbits ≤ 16 then some (decode (BitVec.ofNat 16 (w % 2 ^ nbits))) else none

end Sys2Proof
end

