-- ==== Sys2Proof/Machine/Cond.lean ====
section
/-! DEFINITION. The layout of the condition-flag register COND (10_state.md R29, decision D4). -/

namespace Sys2Proof.Machine

/-- Bit 2 is N, bit 1 is Z, bit 0 is P (R29). -/
def flagBits : Flag → BitVec 3
  | .n => 0b100#3
  | .z => 0b010#3
  | .p => 0b001#3

/-- `COND.N` (R11, R29). -/
def condN (c : BitVec 3) : Bool := c.getLsbD 2

/-- `COND.Z` (R11, R29). -/
def condZ (c : BitVec 3) : Bool := c.getLsbD 1

/-- `COND.P` (R11, R29). -/
def condP (c : BitVec 3) : Bool := c.getLsbD 0

end Sys2Proof.Machine
end

