-- ==== Sys2Proof/Machine/State.lean ====
section
/-! DEFINITION. The state of the machine (10_state.md R20), why a step can stop, and reset (R39). -/

namespace Sys2Proof.Machine

/-- The register file's eight general registers (R21). -/
structure Regs where
  r0 : Word
  r1 : Word
  r2 : Word
  r3 : Word
  r4 : Word
  r5 : Word
  r6 : Word
  r7 : Word
  deriving DecidableEq, Repr

/-- One stored word and its address, 0 .. 65535. The smallest addressable unit is the 16-bit word and the machine has
no byte order (20_memory.md R50, R59), so a cell holds a word (log entry 1). -/
abbrev Cell := Nat × Word

/-- MEM, the array of 65536 words (R50), as the list of its non-zero words by rising address: an address not listed
holds 0x0000, the reset contents (R39; log entry 1). -/
abbrev Memory := List Cell

/-- The canonical form: addresses strictly rise and lie in 0 .. 65535, and no listed word is what an unlisted one
reads as, so equal memories are equal lists. -/
abbrev Memory.wf (m : Memory) : Prop :=
  m.Pairwise (fun x y => x.1 < y.1) ∧ ∀ c ∈ m, c.2 ≠ 0#16 ∧ c.1 < memWords

/-- Why the core is Faulted: the two symbols of 60_exceptions.md R171. -/
inductive FaultReason where
  /-- RTI or RES was executed (R150, R151). -/
  | illegalOpcode
  /-- The I/O provider failed, or was shut down, while a service trap was served (43_system.md R155). -/
  | ioProviderError
  deriving DecidableEq, Repr

/-- RUN (10_state.md R33). Halted and Faulted are terminal (R34). -/
inductive RunState where
  | running
  | halted
  | faulted (reason : FaultReason)
  deriving DecidableEq, Repr

/-- The whole state of the machine (R20): register file, memory, run state, and the I/O provider as R38 models it. -/
structure State where
  /-- R0..R7 (R21). -/
  regs : Regs
  /-- PC (R24). -/
  pc : Word
  /-- COND, laid out as R29 says. -/
  cond : BitVec 3
  /-- MEM (R50), the backing words of the two keyboard addresses included (R57). -/
  mem : Memory
  /-- RUN (R33). -/
  run : RunState
  /-- INQ, the provider's input characters; the head is the pending one (R38). -/
  inq : List Byte
  /-- OUTQ, the bytes written so far, in order (R38). -/
  outq : List Byte
  /-- SHUT, set when the provider has been shut down (R38). -/
  shut : Bool
  /-- DESIGN CHOICE (log entry 4), the model's own field: what the provider chooses for its coming `readInput` and
  `writeOutput` calls inside service traps, one entry a call, true where it fails the call (decision D19's draw).
  No entry left means that the call does not fail. -/
  draws : List Bool
  deriving DecidableEq, Repr

/-- Why a step can stop with no next state. The spec's own faults are no such stop: they are next states with RUN
Faulted (60_exceptions.md R172). -/
inductive Fault where
  /-- Raised by the PUTS service alone, when its scan has read every address once more than there are pending
  characters and found no zero word: the hang of 93_implementation_defined.md U12. Safe: the model stops where the
  hardware goes on; INQ being finite, no state reaches it (log entry 7). -/
  | putsScanUnended
  deriving DecidableEq, Repr

/-- Why the model refuses an instruction. -/
inductive Refusal where
  /-- Raised only by an arm of `exec` whose instruction has no meaning yet; no arm is such a one. Safe. -/
  | notModelled (mnemonic : String)
  deriving DecidableEq, Repr

/-- The state after construction with the parameters `c` (R39, R200). -/
def State.resetWith (c : Config) : State where
  regs := ⟨c.gprReset, c.gprReset, c.gprReset, c.gprReset, c.gprReset, c.gprReset, c.gprReset, c.gprReset⟩
  pc := c.pcReset
  cond := flagBits c.condReset
  mem := []
  run := .running
  inq := []
  outq := []
  shut := false
  draws := []

/-- The state after reset (R39), every parameter at its default. -/
def State.reset : State := .resetWith .standard

end Sys2Proof.Machine
end

