-- ==== Sys2Proof/Machine/Ops.lean ====
section
/-! DEFINITION. The named operations over the state: registers, memory, the I/O provider's calls, the memory
interface with its keyboard interception, fault entry, halt, waiting, and fetch. Every meaning is built of these. -/

namespace Sys2Proof.Machine

/-! ### Registers (10_state.md R21, R24) -/

/-- The word a general register holds. -/
def Regs.get (g : Regs) : Reg → Word
  | .r0 => g.r0
  | .r1 => g.r1
  | .r2 => g.r2
  | .r3 => g.r3
  | .r4 => g.r4
  | .r5 => g.r5
  | .r6 => g.r6
  | .r7 => g.r7

/-- The register file with one register replaced; no register is hard-wired (R21). -/
def Regs.put (g : Regs) (r : Reg) (v : Word) : Regs :=
  match r with
  | .r0 => { g with r0 := v }
  | .r1 => { g with r1 := v }
  | .r2 => { g with r2 := v }
  | .r3 => { g with r3 := v }
  | .r4 => { g with r4 := v }
  | .r5 => { g with r5 := v }
  | .r6 => { g with r6 := v }
  | .r7 => { g with r7 := v }

/-- `x[i]` (00_scope.md R11). -/
def getReg (r : Reg) (s : State) : Word := s.regs.get r

/-- `x[i] <- v` (R11). -/
def setReg (r : Reg) (v : Word) (s : State) : State := { s with regs := s.regs.put r v }

/-- `pc <- t` (R11). -/
def setPc (t : Word) (s : State) : State := { s with pc := t }

/-- COND replaced. -/
def setCond (c : BitVec 3) (s : State) : State := { s with cond := c }

/-! ### The memory array (20_memory.md R50, R52, R56) -/

/-- The word stored at an address: the host's raw view, without the keyboard interception (91_not_in_source.md N18). -/
def memGet : Memory → Nat → Word
  | [], _ => 0x0000#16
  | (k, w) :: m, a => if k = a then w else memGet m a

/-- A cell put in front of the first one with a higher address. -/
def memInsert (a : Nat) (v : Word) : Memory → Memory
  | [] => [(a, v)]
  | (k, w) :: m => if k < a then (k, w) :: memInsert a v m else (a, v) :: (k, w) :: m

/-- `MEM[a] <- v`, keeping the canonical form: a zero word is not listed. -/
def memSet (m : Memory) (a : Nat) (v : Word) : Memory :=
  let rest := m.filter (fun c => c.1 ≠ a)
  if v = 0x0000#16 then rest else memInsert a v rest

/-! ### The I/O provider (10_state.md R37, R38) -/

/-- `hasInput()`: INQ is non-empty and the provider is not shut down (R38). -/
def hasInput (s : State) : Bool := !s.shut && !s.inq.isEmpty

/-- The pending character removed from INQ (R38). -/
def dropInput (s : State) : State := { s with inq := s.inq.tail }

/-- A byte appended to OUTQ (R38). -/
def pushOutput (b : Byte) (s : State) : State := { s with outq := s.outq ++ [b] }

/-- Whether the provider fails the next call a service makes: it is shut down, or it chooses to (decision D19). -/
def callFails (s : State) : Bool := s.shut || s.draws.headD false

/-- The provider's choice for the call just made is used up (log entry 4). -/
def dropDraw (s : State) : State := { s with draws := s.draws.tail }

/-! ### The memory interface (20_memory.md R52 to R57) -/

/-- An input byte or a trap vector widened to a word, `zext_8` (00_scope.md R9). -/
def zext8 (b : BitVec 8) : Word := b.setWidth 16

/-- `MemRead(a)`: the word read and the state after. KBSR answers whether a character is pending (R53), KBDR answers
the character and consumes it (R54), every other address answers the stored word (R52). It never fails (R55). -/
def memRead (a : Word) (s : State) : Word × State :=
  if a = kbsr then (if hasInput s then 0x8000#16 else 0x0000#16, s)
  else if a = kbdr then
    if hasInput s then (zext8 (s.inq.headD 0#8), dropInput s) else (0x0000#16, s)
  else (memGet s.mem a.toNat, s)

/-- `MemWrite(a, v)`: stored unconditionally, with no device effect (R56, R57). -/
def memWrite (a v : Word) (s : State) : State := { s with mem := memSet s.mem a.toNat v }

/-! ### Faults, halt and waiting (60_exceptions.md R172, R181, R192) -/

/-- Fault entry (R172), for a state whose PC has been incremented: RUN becomes Faulted with the reason, the increment
stands, and nothing else changes. There is no handler, no saved register and no mode. There is no return from a fault
either: RTI itself faults (R150), Faulted is never cleared (R174), and a TRAP-entered routine returns by JMP R7 (R184). -/
def takeFault (r : FaultReason) (s : State) : State := { s with run := .faulted r }

/-- `halt` (R181). -/
def halt (s : State) : State := { s with run := .halted }

/-- A step that is not enabled (R155, R192): PC is where it was before the increment, so that the state is the one
before the fetch and the next step tries the instruction again (log entry 6). -/
def suspend (s : State) : State := setPc (s.pc - 1#16) s

/-- The core takes steps only while RUN is Running (R26, R34). -/
def canStep (s : State) : Bool := s.run == .running

/-! ### Fetch and increment (10_state.md R26, 20_memory.md R58) -/

/-- The word that the next fetch reads: `MemRead(PC)`, interception included (R58). -/
def fetchWord (s : State) : Word := (memRead s.pc s).1

/-- The state after fetch and increment, the one an instruction's rule starts from (R10, R26). -/
def afterFetch (s : State) : State := setPc (s.pc + 1#16) (memRead s.pc s).2

/-- Where a word must be stored so that the next fetch reads it: at PC, or at the default `PC_RESET` if PC is a
keyboard address, whose fetch never reads a stored word (R58; log entry 9). -/
def fetchPlace (s : State) : Word := if s.pc = kbsr ∨ s.pc = kbdr then 0x3000#16 else s.pc

/-- The state with one instruction word placed where the next step fetches, and Running so that it does fetch. -/
def placeWord (w : Word) (s : State) : State :=
  { memWrite (fetchPlace s) w s with pc := fetchPlace s, run := .running }

end Sys2Proof.Machine
end

