-- ==== Sys2Proof/Machine/Flags.lean ====
section
/-! DEFINITION. The condition-flag updater (10_state.md R31) and its one reader, the branch condition (R30). -/

namespace Sys2Proof.Machine

/-- The flag of a result (R31): Z if it is zero, else N if bit 15 is set, else P. -/
def flagOf (v : Word) : Flag :=
  if v = 0x0000#16 then .z else if v.getLsbD 15 then .n else .p

/-- `setcc(v)` (R31). -/
def setcc (v : Word) (s : State) : State := setCond (flagBits (flagOf v)) s

/-- What every flag-setting instruction does with its result (41_operate.md R120, 42_load_store.md R130): write the
destination register, then set the flags from the value written. -/
def writeResult (dr : Reg) (v : Word) (s : State) : State := setcc v (setReg dr v s)

/-- Whether BR is taken (40_control.md R110). -/
def branchTaken (n z p : Bool) (c : BitVec 3) : Bool := (n && condN c) || (z && condZ c) || (p && condP c)

end Sys2Proof.Machine
end

