-- ==== Sys2Proof/Machine/Operands.lean ====
section
/-! DEFINITION. The operand forms: the immediates (30_encoding.md R97), the effective addresses of the three
addressing modes (42_load_store.md R130) and the branch targets (40_control.md R110, R112). -/

namespace Sys2Proof.Machine

/-- `sext_5` (00_scope.md R8), for `imm5`. -/
def sext5 (v : BitVec 5) : Word := v.signExtend 16

/-- `sext_6` (R8), for `off6`. -/
def sext6 (v : BitVec 6) : Word := v.signExtend 16

/-- `sext_9` (R8), for `off9`. -/
def sext9 (v : BitVec 9) : Word := v.signExtend 16

/-- `sext_11` (R8), for `off11`. -/
def sext11 (v : BitVec 11) : Word := v.signExtend 16

/-- PC-relative, `pc + sext_9(off9)` modulo 2^16: LD, ST, LEA, the pointer of LDI and STI, the target of BR. -/
def eaPc9 (off9 : BitVec 9) (s : State) : Word := s.pc + sext9 off9

/-- PC-relative, `pc + sext_11(off11)` modulo 2^16: the target of JSR. -/
def eaPc11 (off11 : BitVec 11) (s : State) : Word := s.pc + sext11 off11

/-- Base plus offset, `x[BaseR] + sext_6(off6)` modulo 2^16: LDR, STR. -/
def eaBase6 (baseR : Reg) (off6 : BitVec 6) (s : State) : Word := getReg baseR s + sext6 off6

/-- The character a word carries: its low 8 bits (20_memory.md R59; 43_system.md R157, R158). -/
def lowByte (w : Word) : Byte := w.setWidth 8

end Sys2Proof.Machine
end

