-- ==== Sys2Proof/Machine/Control.lean ====
section
/-! DEFINITION. The control-transfer instructions BR, JSR, JSRR, JMP (40_control.md). `s.pc` is the incremented PC
(00_scope.md R10). -/

namespace Sys2Proof.Machine

/-- The link (10_state.md R23): R7 receives the return address. -/
def link (s : State) : State := setReg .r7 s.pc s

/-- BR (R110). -/
def execBr (n z p : Bool) (off9 : BitVec 9) (s : State) : Host.Outcome State Fault Refusal :=
  .next (if branchTaken n z p s.cond then setPc (eaPc9 off9 s) s else s)

/-- JSR (R112). -/
def execJsr (off11 : BitVec 11) (s : State) : Host.Outcome State Fault Refusal :=
  .next (setPc (eaPc11 off11 s) (link s))

/-- JSRR (R113) under the parameter `JSRR_LINK_FIRST` (93_implementation_defined.md U9): where it is true the base
register is read after R7 has been written, else before. -/
def jsrrWith (c : Config) (baseR : Reg) (s : State) : State :=
  setPc (getReg baseR (if c.jsrrLinkFirst then link s else s)) (link s)

/-- JSRR (R113). -/
def execJsrr (baseR : Reg) (s : State) : Host.Outcome State Fault Refusal :=
  .next (jsrrWith .standard baseR s)

/-- JMP (R114); RET is its form with R7. -/
def execJmp (baseR : Reg) (s : State) : Host.Outcome State Fault Refusal :=
  .next (setPc (getReg baseR s) s)

end Sys2Proof.Machine
end

