-- ==== Sys2Proof/Machine/LoadStore.lean ====
section
/-! DEFINITION. The load, store and address instructions (42_load_store.md). Every read is a full `MemRead`, the
pointer reads of LDI and STI included (20_memory.md R62). -/

namespace Sys2Proof.Machine

/-- A load from an address: the word read is the result of the instruction (R130). -/
def loadFrom (dr : Reg) (a : Word) (s : State) : State := writeResult dr (memRead a s).1 (memRead a s).2

/-- LD (R131). -/
def execLd (dr : Reg) (off9 : BitVec 9) (s : State) : Host.Outcome State Fault Refusal :=
  .next (loadFrom dr (eaPc9 off9 s) s)

/-- ST (R132). -/
def execSt (sr : Reg) (off9 : BitVec 9) (s : State) : Host.Outcome State Fault Refusal :=
  .next (memWrite (eaPc9 off9 s) (getReg sr s) s)

/-- LDR (R133). -/
def execLdr (dr baseR : Reg) (off6 : BitVec 6) (s : State) : Host.Outcome State Fault Refusal :=
  .next (loadFrom dr (eaBase6 baseR off6 s) s)

/-- STR (R134). -/
def execStr (sr baseR : Reg) (off6 : BitVec 6) (s : State) : Host.Outcome State Fault Refusal :=
  .next (memWrite (eaBase6 baseR off6 s) (getReg sr s) s)

/-- LDI (R135): the pointer is read first, then the data. -/
def execLdi (dr : Reg) (off9 : BitVec 9) (s : State) : Host.Outcome State Fault Refusal :=
  .next (loadFrom dr (memRead (eaPc9 off9 s) s).1 (memRead (eaPc9 off9 s) s).2)

/-- STI (R136): the pointer is read first, then the word is stored. -/
def execSti (sr : Reg) (off9 : BitVec 9) (s : State) : Host.Outcome State Fault Refusal :=
  .next (memWrite (memRead (eaPc9 off9 s) s).1 (getReg sr s) (memRead (eaPc9 off9 s) s).2)

/-- LEA (R137): the address is the result and memory is not accessed. -/
def execLea (dr : Reg) (off9 : BitVec 9) (s : State) : Host.Outcome State Fault Refusal :=
  .next (writeResult dr (eaPc9 off9 s) s)

end Sys2Proof.Machine
end

