-- ==== Sys2Proof/Machine/Operate.lean ====
section
/-! DEFINITION. The operate instructions ADD, AND, NOT (41_operate.md). A source register is read in the state before
the destination is written (10_state.md R22). -/

namespace Sys2Proof.Machine

/-- ADD, register form (R121). -/
def execAddReg (dr sr1 sr2 : Reg) (s : State) : Host.Outcome State Fault Refusal :=
  .next (writeResult dr (getReg sr1 s + getReg sr2 s) s)

/-- ADD, immediate form (R122). -/
def execAddImm (dr sr1 : Reg) (imm5 : BitVec 5) (s : State) : Host.Outcome State Fault Refusal :=
  .next (writeResult dr (getReg sr1 s + sext5 imm5) s)

/-- AND, register form (R123). -/
def execAndReg (dr sr1 sr2 : Reg) (s : State) : Host.Outcome State Fault Refusal :=
  .next (writeResult dr (getReg sr1 s &&& getReg sr2 s) s)

/-- AND, immediate form (R124). -/
def execAndImm (dr sr1 : Reg) (imm5 : BitVec 5) (s : State) : Host.Outcome State Fault Refusal :=
  .next (writeResult dr (getReg sr1 s &&& sext5 imm5) s)

/-- NOT (R125). -/
def execNot (dr sr : Reg) (s : State) : Host.Outcome State Fault Refusal :=
  .next (writeResult dr (~~~(getReg sr s)) s)

end Sys2Proof.Machine
end

