-- ==== Sys2Proof/Machine/Services.lean ====
section
/-! DEFINITION. The four trap services that the I/O provider performs (43_system.md R155 to R159). -/

namespace Sys2Proof.Machine

/-- What a provider call made by a service ends in: an answer, or a failure the provider reports (R155). -/
inductive Call (α : Type) where
  | ok (answer : α) (s : State)
  | failed (s : State)

/-- What a service ends in (R155). -/
inductive ServiceResult where
  /-- Done; the character is GETC's and IN's `r.char`. -/
  | finished (char : Option Byte) (s : State)
  /-- A provider call failed; the provider's state is as that call left it. -/
  | failed (s : State)
  /-- Nothing is pending and the provider is not shut down: the step is not enabled. -/
  | waiting
  /-- PUTS found no zero word (93_implementation_defined.md U12). -/
  | unended

/-- `writeOutput(b)` (10_state.md R37): it appends the byte, or fails and appends nothing (DEDUCED, log entry 5). -/
def callWrite (b : Byte) (s : State) : Call Unit :=
  if callFails s then .failed (dropDraw s) else .ok () (pushOutput b (dropDraw s))

/-- `writeOutput` of each byte in order, up to the first failing call (60_exceptions.md R176). -/
def callWriteAll : List Byte → State → Call Unit
  | [], s => .ok () s
  | b :: bs, s =>
    match callWrite b s with
    | .ok _ s' => callWriteAll bs s'
    | .failed s' => .failed s'

/-- `readInput()` (R37): it removes and returns the pending character, or fails and removes nothing (DEDUCED, log
entry 5). The services call it only with a character pending or the provider shut down. -/
def callRead (s : State) : Call Byte :=
  if callFails s then .failed (dropDraw s)
  else
    match s.inq with
    | [] => .failed (dropDraw s)
    | b :: _ => .ok b (dropInput (dropDraw s))

/-- The wait of GETC and IN (R155, decision D21): no character is pending and the provider is not shut down. -/
def awaitsInput (s : State) : Bool := !s.shut && s.inq.isEmpty

/-- GETC (R156). -/
def serviceGetc (s : State) : ServiceResult :=
  if awaitsInput s then .waiting
  else
    match callRead s with
    | .ok b s' => .finished (some b) s'
    | .failed s' => .failed s'

/-- OUT (R157): the low 8 bits of R0. -/
def serviceOut (s : State) : ServiceResult :=
  match callWrite (lowByte (getReg .r0 s)) s with
  | .ok _ s' => .finished none s'
  | .failed s' => .failed s'

/-- The scan of PUTS (R158) from address `a`, making at most `fuel` reads. -/
def putsScan : Nat → Word → State → ServiceResult
  | 0, _, _ => .unended
  | fuel + 1, a, s =>
    let w := (memRead a s).1
    let s' := (memRead a s).2
    if w = 0x0000#16 then .finished none s'
    else
      match callWrite (lowByte w) s' with
      | .ok _ s'' => putsScan fuel (a + 1#16) s''
      | .failed s'' => .failed s''

/-- Enough reads for every PUTS scan: one lap of the address space for each pending character and one more, since each
lap reads KBDR once and KBDR reads zero when nothing is pending (R54, R158; log entry 7). -/
def putsFuel (s : State) : Nat := memWords * (s.inq.length + 1)

/-- PUTS (R158): the string starts at the address in R0. -/
def servicePuts (s : State) : ServiceResult := putsScan (putsFuel s) (getReg .r0 s) s

/-- IN (R159) under the parameters `IN_PROMPT` and `IN_ECHO` (decision D14). The prompt is written when the step is
taken, not when the wait begins. -/
def serviceIn (c : Config) (s : State) : ServiceResult :=
  if awaitsInput s then .waiting
  else
    match callWriteAll c.inPrompt s with
    | .failed s' => .failed s'
    | .ok _ s' =>
      match callRead s' with
      | .failed s'' => .failed s''
      | .ok b s'' =>
        if c.inEcho then
          match callWrite b s'' with
          | .failed t => .failed t
          | .ok _ t => .finished (some b) t
        else .finished (some b) s''

/-- How a service trap ends (R155). A failure is the fault IOProviderError with no register written, the provider's
side effects kept. Otherwise R7 receives the return address, R0 the character of GETC and IN, and PC stays. -/
def endService (s : State) : ServiceResult → Host.Outcome State Fault Refusal
  | .finished none t => .next (link t)
  | .finished (some b) t => .next (setReg .r0 (zext8 b) (link t))
  | .failed t => .next (takeFault .ioProviderError t)
  | .waiting => .next (suspend s)
  | .unended => .fault .putsScanUnended

end Sys2Proof.Machine
end

