-- ==== Sys2Proof/Machine/System.lean ====
section
/-! DEFINITION. The system instructions RTI, RES and TRAP (43_system.md). -/

namespace Sys2Proof.Machine

/-- RTI (R150): it takes the fault IllegalOpcode, always. -/
def execRti (s : State) : Host.Outcome State Fault Refusal := .next (takeFault .illegalOpcode s)

/-- RES (R151): it takes the fault IllegalOpcode, always. -/
def execRes (s : State) : Host.Outcome State Fault Refusal := .next (takeFault .illegalOpcode s)

/-- TRAP's transfer (R152): R7 receives the return address, then PC the word of the vector table at `v`. -/
def trapTransfer (v : Word) (s : State) : State := setPc (memRead v (link s)).1 (memRead v (link s)).2

/-- TRAP under the parameters of the IN service (R152 to R160). The dispatcher compares the zero-extended vector field
(R153); a service reads the table entry and discards it (R155); HALT makes the transfer and then halts (R154). -/
def trapWith (c : Config) (vect8 : BitVec 8) (s : State) : Host.Outcome State Fault Refusal :=
  let v := zext8 vect8
  let read := (memRead v s).2
  if v = vectGetc then endService s (serviceGetc read)
  else if v = vectOut then endService s (serviceOut read)
  else if v = vectPuts then endService s (servicePuts read)
  else if v = vectIn then endService s (serviceIn c read)
  else if v = vectHalt then .next (halt (trapTransfer v s))
  else .next (trapTransfer v s)

/-- TRAP (R152 to R160). -/
def execTrap (vect8 : BitVec 8) (s : State) : Host.Outcome State Fault Refusal := trapWith .standard vect8 s

end Sys2Proof.Machine
end

