-- ==== Sys2Proof/Machine/Step.lean ====
section
/-! DEFINITION. One step of the core (10_state.md R26, R34), and how the host places an instruction to run. -/

namespace Sys2Proof.Machine

/-- The instruction cycle (R26): while RUN is Running, fetch at PC, increment PC, decode, execute. In a terminal state
a step changes nothing (R34). -/
def step (s : State) : Host.Outcome State Fault Refusal :=
  if canStep s then exec (decode (fetchWord s)) (afterFetch s) else .next s

/-- The state with an instruction of `nbits` bits whose bits are `w` placed where `step` fetches next. -/
def State.withFetchWord (s : State) (nbits w : Nat) : State :=
  placeWord (BitVec.ofNat 16 (w % 2 ^ nbits)) s

end Sys2Proof.Machine
end

