-- ==== Sys2Proof/Machine/Params.lean ====
section
/-! DEFINITION. The machine under any choice of the parameters of 00_scope.md R5: `exec` and `step` are this with every
parameter at its default. -/

namespace Sys2Proof.Machine

/-- `exec` under `c`. The parameters `JSRR_LINK_FIRST`, `IN_PROMPT` and `IN_ECHO` matter to JSRR and TRAP alone. -/
def execWith (c : Config) (i : Instr) (s : State) : Host.Outcome State Fault Refusal :=
  match i with
  | .jsrr baseR => .next (jsrrWith c baseR s)
  | .trap vect8 => trapWith c vect8 s
  | .br _ _ _ _ | .addReg _ _ _ | .addImm _ _ _ | .ld _ _ | .st _ _ | .jsr _ | .andReg _ _ _ | .andImm _ _ _
  | .ldr _ _ _ | .str _ _ _ | .rti | .not _ _ | .ldi _ _ | .sti _ _ | .jmp _ | .res | .lea _ _ => exec i s

/-- One step under `c` (10_state.md R26, R34): the opcode numbers matter to its decoding. -/
def stepWith (c : Config) (s : State) : Host.Outcome State Fault Refusal :=
  if canStep s then execWith c (decodeWith c (fetchWord s)) (afterFetch s) else .next s

end Sys2Proof.Machine
end

