-- ==== Sys2Proof/Machine/Agents.lean ====
section
/-! DEFINITION. The other two agents of 00_scope.md R13, the I/O provider (10_state.md R38) and the host
(70_reset_and_hazards.md R207, R208), and the moves of all three. What
the core does under other parameters than the defaults takes the `Config` as its first argument. -/

namespace Sys2Proof.Machine

/-! ### The I/O provider -/

/-- A new character arrives (R38, R208). -/
def providerArrive (b : Byte) (s : State) : State := { s with inq := s.inq ++ [b] }

/-- The provider is shut down (R37, R208). -/
def providerShutDown (s : State) : State := { s with shut := true }

/-- The provider chooses which of its coming calls it fails (decision D19, log entry 4). -/
def providerChoose (fails : List Bool) (s : State) : State := { s with draws := fails }

/-! ### The host -/

/-- `write(address, value)` (R208; 20_memory.md R56). -/
def hostWrite (a v : Word) (s : State) : State := memWrite a v s

/-- `set(reg, word)` on a general register (R207). -/
def hostSetReg (r : Reg) (v : Word) (s : State) : State := setReg r v s

/-- `set` on PC (R207). -/
def hostSetPc (v : Word) (s : State) : State := setPc v s

/-- `setFlags(flag)` (R207): one of N, Z, P. -/
def hostSetFlags (f : Flag) (s : State) : State := setCond (flagBits f) s

/-- `RunResult` (10_state.md R41): the run state, R0..R7 and PC, and COND. -/
structure RunResult where
  finalState : RunState
  registers : Regs
  pc : Word
  flags : BitVec 3
  deriving DecidableEq, Repr

/-- What the host reads of a state at the end of a run (R41). -/
def snapshot (s : State) : RunResult := ⟨s.run, s.regs, s.pc, s.cond⟩

/-- `run` (R208, R209): the core's step repeated until RUN is Halted or Faulted, here for at most `fuel` steps, since a
run may never end; `none` where it has not ended by then. -/
def hostRun (c : Config) : Nat → State → Option RunResult
  | 0, s => if canStep s then none else some (snapshot s)
  | fuel + 1, s =>
    if canStep s then
      match stepWith c s with
      | .next t => hostRun c fuel t
      | .fault _ => none
      | .refused _ => none
    else some (snapshot s)

/-! ### The program image (R204) -/

/-- The big-endian 16-bit words of a byte stream; `none` for an odd trailing byte, which R204 leaves to `LOADER`. -/
def imageWords : List Byte → Option (List Word)
  | [] => some []
  | [_] => none
  | hi :: lo :: rest =>
    match imageWords rest with
    | some ws => some ((hi ++ lo : BitVec 16) :: ws)
    | none => none

/-- Words stored at sequential addresses from `a`. -/
def storeFrom : Word → List Word → State → State
  | _, [], s => s
  | a, w :: ws, s => storeFrom (a + 1#16) ws (hostWrite a w s)

/-- Host writes in the order given, each an address and a word. -/
def hostWrites : List (Word × Word) → State → State
  | [], s => s
  | (a, w) :: ws, s => hostWrites ws (hostWrite a w s)

/-- Where R204 leaves the loading open, what the parameter `LOADER` makes of it (decision D25, log entry 10). -/
def loadOpen (c : Config) (images : List (List Byte)) (s : State) : Option State :=
  (c.loader images).map (fun ws => hostWrites ws s)

/-- Images loaded by the host (R204). One image: its first word is the origin, the others go to sequential addresses
from it. An odd trailing byte, no origin word, an image that runs past 0xFFFF, and several images are left to `LOADER`;
`none` where nothing is loaded. -/
def loadImages (c : Config) (images : List (List Byte)) (s : State) : Option State :=
  match images with
  | [image] =>
    match imageWords image with
    | some (origin :: ws) =>
      if origin.toNat + ws.length ≤ memWords then some (storeFrom origin ws s) else loadOpen c images s
    | some [] => loadOpen c images s
    | none => loadOpen c images s
  | [] => some s
  | _ :: _ :: _ => loadOpen c images s

/-! ### All moves -/

/-- The moves of the three agents (R13, R208). -/
inductive Move where
  /-- One step of the core. -/
  | core
  /-- The provider: a character arrives. -/
  | arrive (b : Byte)
  /-- The provider: shut down. -/
  | shutDown
  /-- The provider: its choices for coming calls. -/
  | choose (fails : List Bool)
  /-- The host: `write`. -/
  | write (a v : Word)
  /-- The host: `set` on a general register. -/
  | setReg (r : Reg) (v : Word)
  /-- The host: `set` on PC. -/
  | setPc (v : Word)
  /-- The host: `setFlags`. -/
  | setFlags (f : Flag)
  deriving DecidableEq, Repr

/-- One move of one agent. Only the core's can end in anything but a next state. -/
def move (c : Config) (m : Move) (s : State) : Host.Outcome State Fault Refusal :=
  match m with
  | .core => stepWith c s
  | .arrive b => .next (providerArrive b s)
  | .shutDown => .next (providerShutDown s)
  | .choose fails => .next (providerChoose fails s)
  | .write a v => .next (hostWrite a v s)
  | .setReg r v => .next (hostSetReg r v s)
  | .setPc v => .next (hostSetPc v s)
  | .setFlags f => .next (hostSetFlags f s)

/-- A sequence of moves of the agents, in any interleaving, up to the first that has no next state. -/
def moves (c : Config) : List Move → State → Host.Outcome State Fault Refusal
  | [], s => .next s
  | m :: ms, s =>
    match move c m s with
    | .next t => moves c ms t
    | .fault f => .fault f
    | .refused r => .refused r

end Sys2Proof.Machine
end

