-- ==== Sys2Proof/Safety.lean ====
section
/-! DEFINITION. What claims about the machine are stated in: the invariant, terminal states, success of a run
(60_exceptions.md R174), and the predicates that say what an instruction left unchanged. -/

namespace Sys2Proof.Machine

/-- Exactly one of N, Z, P is set (10_state.md R28, R29). -/
abbrev oneHot (c : BitVec 3) : Prop := c = 0b100#3 ∨ c = 0b010#3 ∨ c = 0b001#3

/-- The invariant: memory is in its canonical form and COND has exactly one flag set (R28). -/
abbrev State.Inv (s : State) : Prop := s.mem.wf ∧ oneHot s.cond

/-- Halted and Faulted are the terminal states (R34). -/
abbrev State.terminal (s : State) : Prop := s.run ≠ .running

/-- What success of a run means: it ended Halted (R174). -/
abbrev State.succeeded (s : State) : Prop := s.run = .halted

/-- A step is safe when it answers a next state. -/
def StepSafe (s : State) : Prop := ∃ t, step s = .next t

/-- COND is the flag of the word `v` (R31): Z for 0x0000, P for 0x0001..0x7FFF, N for 0x8000..0xFFFF. -/
abbrev reflects (c : BitVec 3) (v : Word) : Prop :=
  if v.toNat = 0 then c = 0b010#3 else if v.toNat ≤ 0x7FFF then c = 0b001#3 else c = 0b100#3

/-- Every general register but the listed ones reads as before. -/
def KeepsRegsBut (written : List Reg) (s t : State) : Prop := ∀ r, r ∉ written → getReg r t = getReg r s

/-- Every address of memory reads as before (raw, without the keyboard interception). -/
def KeepsMemory (s t : State) : Prop := ∀ a : Nat, memGet t.mem a = memGet s.mem a

/-- Every address of memory but one reads as before. -/
def KeepsMemoryBut (a : Word) (s t : State) : Prop := ∀ b : Nat, b ≠ a.toNat → memGet t.mem b = memGet s.mem b

/-- The I/O provider's state is as before. -/
def KeepsProvider (s t : State) : Prop :=
  t.inq = s.inq ∧ t.outq = s.outq ∧ t.shut = s.shut ∧ t.draws = s.draws

/-- The outcome is a next state in which `dr` holds `v`, COND is the flag of `v`, and all else is as in `s`, but for
the provider, which is as in `p` (a read of KBDR consumes a character). -/
def Results (o : Host.Outcome State Fault Refusal) (s p : State) (dr : Reg) (v : Word) : Prop :=
  ∃ t, o = .next t ∧ getReg dr t = v ∧ reflects t.cond v ∧ KeepsRegsBut [dr] s t ∧ t.pc = s.pc ∧ KeepsMemory s t ∧
    t.run = s.run ∧ KeepsProvider p t

/-- The outcome is a next state in which the word at `a` is `v`, every other address reads as before, and all else is
as in `s`, but for the provider, which is as in `p`. -/
def Stores (o : Host.Outcome State Fault Refusal) (s p : State) (a v : Word) : Prop :=
  ∃ t, o = .next t ∧ memGet t.mem a.toNat = v ∧ KeepsMemoryBut a s t ∧ t.regs = s.regs ∧ t.cond = s.cond ∧
    t.pc = s.pc ∧ t.run = s.run ∧ KeepsProvider p t

/-- The outcome is a next state in which PC is `target`, R7 is `ret` where there is one, and all else is as in `s`. -/
def Transfers (o : Host.Outcome State Fault Refusal) (s : State) (ret : Option Word) (target : Word) : Prop :=
  ∃ t, o = .next t ∧ t.pc = target ∧ getReg .r7 t = ret.getD (getReg .r7 s) ∧ KeepsRegsBut [.r7] s t ∧
    t.cond = s.cond ∧ KeepsMemory s t ∧ t.run = s.run ∧ KeepsProvider s t

/-- The outcome is a next state that is Faulted with the reason `f`, registers, COND, PC and memory as in `s`
(60_exceptions.md R172). -/
def Faults (o : Host.Outcome State Fault Refusal) (s : State) (f : FaultReason) (t : State) : Prop :=
  o = .next t ∧ t.run = .faulted f ∧ t.regs = s.regs ∧ t.cond = s.cond ∧ t.pc = s.pc ∧ KeepsMemory s t

/-- An address that is not one of the two keyboard addresses (20_memory.md R52). -/
abbrev ordinary (a : Word) : Prop := a ≠ 0xFE00#16 ∧ a ≠ 0xFE02#16

/-- The words `cs`, none of them zero, and then a zero word lie in ordinary memory from address `a` on, addresses
wrapping modulo 2^16: a string as PUTS scans it (43_system.md R158). -/
def stringAt (m : Memory) : Word → List Word → Prop
  | a, [] => ordinary a ∧ memGet m a.toNat = 0x0000#16
  | a, c :: cs => ordinary a ∧ memGet m a.toNat = c ∧ c ≠ 0x0000#16 ∧ stringAt m (a + 1#16) cs

/-- The words `cs`, none of them zero, lie in ordinary memory from address `a` on, addresses wrapping modulo 2^16. -/
def wordsAt (m : Memory) : Word → List Word → Prop
  | _, [] => True
  | a, c :: cs => ordinary a ∧ memGet m a.toNat = c ∧ c ≠ 0x0000#16 ∧ wordsAt m (a + 1#16) cs

/-- One `MemRead` after the other from address `a` on returns the words `cs` and leaves the state `t`: a scan with the
keyboard interception (20_memory.md R52 to R54, decision D24). -/
def readsFrom : Word → State → List Word → State → Prop
  | _, s, [], t => t = s
  | a, s, c :: cs, t => (memRead a s).1 = c ∧ readsFrom (a + 1#16) (memRead a s).2 cs t

/-- The destination register of a flag-setting instruction: ADD, AND, NOT, LD, LDI, LDR, LEA, and of no other
(10_state.md R32). -/
def flagDest : Instr → Option Reg
  | .addReg dr _ _ => some dr
  | .addImm dr _ _ => some dr
  | .andReg dr _ _ => some dr
  | .andImm dr _ _ => some dr
  | .not dr _ => some dr
  | .ld dr _ => some dr
  | .ldi dr _ => some dr
  | .ldr dr _ _ => some dr
  | .lea dr _ => some dr
  | .br _ _ _ _ => none
  | .st _ _ => none
  | .sti _ _ => none
  | .str _ _ _ => none
  | .jsr _ => none
  | .jsrr _ => none
  | .jmp _ => none
  | .rti => none
  | .res => none
  | .trap _ => none

/-- The registers an instruction may write: the last column of R22. -/
def regsWritten (i : Instr) : List Reg :=
  match flagDest i with
  | some dr => [dr]
  | none =>
    match i with
    | .jsr _ => [.r7]
    | .jsrr _ => [.r7]
    | .trap v => if v = 0x20#8 ∨ v = 0x23#8 then [.r7, .r0] else [.r7]
    | _ => []

/-- The registers an instruction reads: the middle column of R22. JSRR reads its base after R7 is written, so the old
R7 is never read by it (R113). -/
def regsRead : Instr → List Reg
  | .addReg _ a b => [a, b]
  | .andReg _ a b => [a, b]
  | .addImm _ a _ => [a]
  | .andImm _ a _ => [a]
  | .not _ a => [a]
  | .ldr _ b _ => [b]
  | .st a _ => [a]
  | .sti a _ => [a]
  | .str a b _ => [a, b]
  | .jmp b => [b]
  | .jsrr b => if b = .r7 then [] else [b]
  | .trap v => if v = 0x21#8 ∨ v = 0x22#8 then [.r0] else []
  | .br _ _ _ _ => []
  | .ld _ _ => []
  | .ldi _ _ => []
  | .lea _ _ => []
  | .jsr _ => []
  | .rti => []
  | .res => []

/-- The address an instruction stores to, where it stores (20_memory.md R62): ST, STR, and STI after its pointer read. -/
def storeAddr (i : Instr) (s : State) : Option Word :=
  match i with
  | .st _ off9 => some (eaPc9 off9 s)
  | .str _ baseR off6 => some (eaBase6 baseR off6 s)
  | .sti _ off9 => some (memRead (eaPc9 off9 s) s).1
  | _ => none

end Sys2Proof.Machine
end

