-- ==== Sys2Proof/Certificates/Slice0/Obligations.lean ====
section
/-! DEFINITION. The statements for the provers, from the numbered rules of spec/. `s.pc` in a statement about `exec` is
the incremented PC (00_scope.md R10); `w.extractLsb' lo n` is the field of `n` bits from bit `lo` upwards (R6). -/

open Sys2Proof Sys2Proof.Machine

/-! ### Encoding (30_encoding.md) -/

/-- 30_encoding.md section 6 (R104): decoding an encoded instruction gives it back, every operand at every value; and
encoding a decoded word gives the word back up to the unnamed bits of its form. -/
def Obligations.DecodeOfEncodeIsTheInstruction : Prop :=
  (∀ i : Instr, decode (encode i) = i) ∧
  ∀ w : Word, encode (decode w) &&& ~~~(decode w).form.unnamed = w &&& ~~~(decode w).form.unnamed

/-- 30_encoding.md section 2 (R84, decision D11): words that differ only in the bits their format does not name decode
to the same instruction; the encoder puts the conventional values there. -/
def Obligations.UnnamedBitsAreIgnored : Prop :=
  (∀ w v : Word, w &&& ~~~(decode w).form.unnamed = v &&& ~~~(decode w).form.unnamed → decode v = decode w) ∧
  ∀ i : Instr, encode i &&& i.form.unnamed = i.form.conventional

/-- 30_encoding.md section 3 (R85) and the mask and match of spec/opcode_table.json: the nineteen rows partition the
65536 words, and the row a word matches is the form its decoding has. -/
def Obligations.EveryWordMatchesExactlyItsRow : Prop :=
  ∀ (w : Word) (f : Form), f.fits w = true ↔ (decode w).form = f

/-- The words of 95_test_vectors.md W1, one per form, and the eight register fields of 30_encoding.md R83. -/
def Obligations.SampleWordsDecodeToTheirFields : Prop :=
  decode 0x0BF0#16 = .br true false true 0x1F0#9 ∧ decode 0x1705#16 = .addReg .r3 .r4 .r5 ∧
  decode 0x173B#16 = .addImm .r3 .r4 0x1B#5 ∧ decode 0x2CAA#16 = .ld .r6 0x0AA#9 ∧
  decode 0x3D55#16 = .st .r6 0x155#9 ∧ decode 0x4D55#16 = .jsr 0x555#11 ∧ decode 0x4140#16 = .jsrr .r5 ∧
  decode 0x5283#16 = .andReg .r1 .r2 .r3 ∧ decode 0x52AA#16 = .andImm .r1 .r2 0x0A#5 ∧
  decode 0x6FAA#16 = .ldr .r7 .r6 0x2A#6 ∧ decode 0x7055#16 = .str .r0 .r1 0x15#6 ∧ decode 0x8000#16 = .rti ∧
  decode 0x997F#16 = .not .r4 .r5 ∧ decode 0x9940#16 = .not .r4 .r5 ∧ decode 0xA5FF#16 = .ldi .r2 0x1FF#9 ∧
  decode 0xB400#16 = .sti .r2 0x000#9 ∧ decode 0xC180#16 = .jmp .r6 ∧ decode 0xD000#16 = .res ∧
  decode 0xEF00#16 = .lea .r7 0x100#9 ∧ decode 0xF025#16 = .trap 0x25#8 ∧
  [0#3, 1#3, 2#3, 3#3, 4#3, 5#3, 6#3, 7#3].map Reg.ofBits = [.r0, .r1, .r2, .r3, .r4, .r5, .r6, .r7]

/-! ### The step, reset and the agents -/

/-- 10_state.md section 3 (R26; the interception of the fetch is decision D8): while Running, one step is fetch at PC
through the memory interface, increment of PC, decode and execute; otherwise it is no step (R34). -/
def Obligations.StepRunsTheDecodedInstruction : Prop :=
  (∀ s : State, s.run = .running →
    step s = exec (decode (memRead s.pc s).1) { (memRead s.pc s).2 with pc := s.pc + 1#16 }) ∧
  (∀ (s : State) (i : Instr), s.run = .running → ordinary s.pc → decode (memGet s.mem s.pc.toNat) = i →
    step s = exec i { s with pc := s.pc + 1#16 }) ∧
  ∀ s : State, s.run ≠ .running → step s = .next s

/-- The model's own operation (log entry 9): an instruction word placed with `withFetchWord` is the one the next step
executes, from every state. -/
def Obligations.PlacedWordIsExecutedNext : Prop :=
  ∀ (s : State) (w : Nat) (i : Instr), decodeTableWord 16 w = some i →
    step (s.withFetchWord 16 w) =
      exec i { s.withFetchWord 16 w with pc := (s.withFetchWord 16 w).pc + 1#16 } ∧
    (s.withFetchWord 16 w).regs = s.regs ∧ (s.withFetchWord 16 w).cond = s.cond ∧
    KeepsMemoryBut (s.withFetchWord 16 w).pc s (s.withFetchWord 16 w) ∧
    KeepsProvider s (s.withFetchWord 16 w) ∧
    (ordinary s.pc → s.run = .running → (s.withFetchWord 16 w).pc = s.pc ∧ (s.withFetchWord 16 w).run = s.run)

/-- 10_state.md section 5 (R34; a step request in a terminal state is decision D18): in Halted and Faulted a step
changes nothing, and no move of the core, the host or the provider leaves a terminal state. -/
def Obligations.TerminalStatesAreNeverLeft : Prop :=
  (∀ s : State, s.terminal → step s = .next s) ∧ (∀ (c : Config) (s : State), s.terminal → stepWith c s = .next s) ∧
  ∀ (c : Config) (m : Move) (s t : State), s.terminal → move c m s = .next t → t.run = s.run

/-- The invariant of the model: the canonical form of memory (log entry 1) and exactly one condition flag (R28). Every
step from every state that has it leads to a state that has it, under the default parameters and under any others. -/
def Obligations.EveryStepKeepsTheInvariant : Prop :=
  (∀ s t : State, s.Inv → step s = .next t → t.Inv) ∧
  ∀ (c : Config) (s t : State), s.Inv → stepWith c s = .next t → t.Inv

/-- The invariant holds after reset, under every choice of the parameters of 00_scope.md R5. -/
def Obligations.ResetHasTheInvariant : Prop :=
  (∀ c : Config, (State.resetWith c).Inv) ∧ State.reset.Inv

/-- 10_state.md section 4 (R28; the rule's last claim is its own derivation): any interleaving of moves of the core,
the provider and the host keeps the invariant, so exactly one flag is set in every reachable state. -/
def Obligations.EveryInterleavingKeepsTheInvariant : Prop :=
  (∀ (c : Config) (ms : List Move) (s t : State), s.Inv → moves c ms s = .next t → t.Inv) ∧
  ∀ (c : Config) (ms : List Move) (t : State), moves c ms (State.resetWith c) = .next t →
    t.cond = 0b100#3 ∨ t.cond = 0b010#3 ∨ t.cond = 0b001#3

/-- No instruction, in any state, is refused or stops the machine outside RUN: every instruction and every step answers
a next state, under any parameters. In particular the PUTS scan ends (log entry 7), whatever memory and INQ hold. That a
waiting GETC or IN answers a next state is the model's choice for decision D21 (log entry 6), and that a step in a
terminal state does is the one for decision D18 (log entry 16). -/
def Obligations.EveryInstructionAnswersANextState : Prop :=
  (∀ (i : Instr) (s : State), ∃ t, exec i s = .next t) ∧ (∀ s : State, StepSafe s) ∧
  (∀ (c : Config) (i : Instr) (s : State), ∃ t, execWith c i s = .next t) ∧
  ∀ (c : Config) (s : State), ∃ t, stepWith c s = .next t

/-- 10_state.md section 7 (R39): the reset state. Memory zero and RUN Running are the source's; R0..R7, PC, COND and
the provider's state are the spec's decisions D5, D6, D7, D19 (log entry 2). -/
def Obligations.ResetStateIsAsListed : Prop :=
  (∀ a : Nat, memGet State.reset.mem a = 0x0000#16) ∧ State.reset.run = .running ∧
  (∀ r, getReg r State.reset = 0x0000#16) ∧ State.reset.pc = 0x3000#16 ∧ State.reset.cond = 0b010#3 ∧
  State.reset.inq = [] ∧ State.reset.outq = [] ∧ State.reset.shut = false ∧
  ∀ (c : Config) (r : Reg), getReg r (State.resetWith c) = c.gprReset ∧ (State.resetWith c).pc = c.pcReset

/-- 20_memory.md section 4 (R58, decision D8): a fetch from the keyboard addresses is intercepted. From 0xFE02 it
consumes the pending character and executes its value, a BR that never branches; from 0xFE00 it executes 0x8000 (RTI)
or 0x0000. -/
def Obligations.FetchFromKeyboardIsIntercepted : Prop :=
  (∀ (s : State) (c : Byte) (rest : List Byte), s.run = .running → s.pc = 0xFE02#16 → s.shut = false →
    s.inq = c :: rest → step s = .next { s with pc := 0xFE03#16, inq := rest }) ∧
  (∀ s : State, s.run = .running → s.pc = 0xFE00#16 → s.shut = false → s.inq ≠ [] →
    step s = .next { s with pc := 0xFE01#16, run := .faulted .illegalOpcode }) ∧
  ∀ s : State, s.run = .running → s.pc = 0xFE00#16 ∨ s.pc = 0xFE02#16 → s.inq = [] ∨ s.shut = true →
    step s = .next { s with pc := s.pc + 1#16 }

/-! ### Words, flags and memory -/

/-- 00_scope.md R8 and R9: sign extension of the four immediates and zero extension, in arithmetic; and that adding an
extended field modulo 2^16 adds its signed value. -/
def Obligations.ExtensionsAreTheArithmeticOnes : Prop :=
  (∀ v : BitVec 5, (sext5 v).toNat = if v.toNat < 2 ^ 4 then v.toNat else v.toNat + (2 ^ 16 - 2 ^ 5)) ∧
  (∀ v : BitVec 6, (sext6 v).toNat = if v.toNat < 2 ^ 5 then v.toNat else v.toNat + (2 ^ 16 - 2 ^ 6)) ∧
  (∀ v : BitVec 9, (sext9 v).toNat = if v.toNat < 2 ^ 8 then v.toNat else v.toNat + (2 ^ 16 - 2 ^ 9)) ∧
  (∀ v : BitVec 11, (sext11 v).toNat = if v.toNat < 2 ^ 10 then v.toNat else v.toNat + (2 ^ 16 - 2 ^ 11)) ∧
  (∀ v : BitVec 8, (zext8 v).toNat = v.toNat) ∧
  (∀ (x : Word) (v : BitVec 5), ((x + sext5 v).toNat : Int) = ((x.toNat : Int) + v.toInt) % 65536) ∧
  (∀ (x : Word) (v : BitVec 6), ((x + sext6 v).toNat : Int) = ((x.toNat : Int) + v.toInt) % 65536) ∧
  (∀ (x : Word) (v : BitVec 9), ((x + sext9 v).toNat : Int) = ((x.toNat : Int) + v.toInt) % 65536) ∧
  ∀ (x : Word) (v : BitVec 11), ((x + sext11 v).toNat : Int) = ((x.toNat : Int) + v.toInt) % 65536

/-- 10_state.md R31: `setcc(v)` leaves Z for 0x0000, P for 0x0001..0x7FFF, N for 0x8000..0xFFFF, and touches COND
alone. -/
def Obligations.SetccFollowsTheResult : Prop :=
  ∀ (v : Word) (s : State), reflects (setcc v s).cond v ∧ setcc v s = { s with cond := (setcc v s).cond }

/-- 20_memory.md R52 and R56: an ordinary address reads as its stored word, without a side effect; a write stores its
word at every address, the keyboard's backing words included, and nothing else; a later read of an ordinary address
returns the word written, and a read of another address what it returned before. -/
def Obligations.MemoryReadsBackWhatWasWritten : Prop :=
  (∀ (a : Word) (s : State), ordinary a → memRead a s = (memGet s.mem a.toNat, s)) ∧
  (∀ (a v : Word) (s : State), memGet (memWrite a v s).mem a.toNat = v ∧ KeepsMemoryBut a s (memWrite a v s) ∧
    memWrite a v s = { s with mem := (memWrite a v s).mem }) ∧
  (∀ (a v : Word) (s : State), ordinary a → memRead a (memWrite a v s) = (v, memWrite a v s)) ∧
  ∀ (a b v : Word) (s : State), b ≠ a → (memRead b (memWrite a v s)).1 = (memRead b s).1

/-- 20_memory.md section 2 (R53, R54, R55; bits 14..0 of KBSR and 15..8 of KBDR, and the empty read, are decisions D9,
D10, D20): KBSR shows in bit 15 whether a character is pending and consumes nothing; KBDR returns the character,
zero-extended, and consumes it; with nothing pending, or the provider shut down, it returns 0x0000. -/
def Obligations.KeyboardRegistersReadAsDescribed : Prop :=
  (∀ s : State, memRead 0xFE00#16 s = (if s.inq ≠ [] ∧ s.shut = false then 0x8000#16 else 0x0000#16, s)) ∧
  (∀ (s : State) (c : Byte) (rest : List Byte), s.shut = false → s.inq = c :: rest →
    (memRead 0xFE02#16 s).1.toNat = c.toNat ∧ (memRead 0xFE02#16 s).2 = { s with inq := rest }) ∧
  ∀ s : State, s.inq = [] ∨ s.shut = true → memRead 0xFE02#16 s = (0x0000#16, s)

/-- 20_memory.md section 3 (R57, decision D23): a write to a keyboard address is stored in the backing word and changes
neither the provider nor what any address reads as. -/
def Obligations.KeyboardWritesHaveNoDeviceEffect : Prop :=
  ∀ (a v : Word) (s : State), a = 0xFE00#16 ∨ a = 0xFE02#16 →
    KeepsProvider s (memWrite a v s) ∧ memGet (memWrite a v s).mem a.toNat = v ∧
    ∀ b : Word, (memRead b (memWrite a v s)).1 = (memRead b s).1

/-! ### Control transfer (40_control.md) -/

/-- R110: BR. -/
def Obligations.BrBranchesOnASelectedFlag : Prop :=
  (∀ w : Word, w.extractLsb' 12 4 = 0x0#4 →
    decode w = .br (w.getLsbD 11) (w.getLsbD 10) (w.getLsbD 9) (w.extractLsb' 0 9)) ∧
  (∀ (n z p : Bool) (off9 : BitVec 9) (s : State),
    Transfers (exec (.br n z p off9) s) s none
      (if (n = true ∧ s.cond.getLsbD 2 = true) ∨ (z = true ∧ s.cond.getLsbD 1 = true) ∨
          (p = true ∧ s.cond.getLsbD 0 = true)
        then s.pc + sext9 off9 else s.pc)) ∧
  ∀ (w : Word) (c : BitVec 3),
    ((w.getLsbD 11 = true ∧ c.getLsbD 2 = true) ∨ (w.getLsbD 10 = true ∧ c.getLsbD 1 = true) ∨
      (w.getLsbD 9 = true ∧ c.getLsbD 0 = true)) ↔ w.extractLsb' 9 3 &&& c ≠ 0#3

/-- 40_control.md R111, the rule's own derivation: with one flag set, BRnzp is always taken, and BR with no condition
bit never is, in any state. -/
def Obligations.BrWithAllOrNoneOfTheConditions : Prop :=
  (∀ (off9 : BitVec 9) (s : State), oneHot s.cond →
    Transfers (exec (.br true true true off9) s) s none (s.pc + sext9 off9)) ∧
  ∀ (off9 : BitVec 9) (s : State), exec (.br false false false off9) s = .next s

/-- R112: JSR. -/
def Obligations.JsrLinksAndJumpsRelative : Prop :=
  (∀ w : Word, w.extractLsb' 12 4 = 0x4#4 → w.getLsbD 11 = true → decode w = .jsr (w.extractLsb' 0 11)) ∧
  ∀ (off11 : BitVec 11) (s : State), Transfers (exec (.jsr off11) s) s (some s.pc) (s.pc + sext11 off11)

/-- R113: JSRR; with R7 as base the target is the new R7. -/
def Obligations.JsrrLinksThenReadsItsBase : Prop :=
  (∀ w : Word, w.extractLsb' 12 4 = 0x4#4 → w.getLsbD 11 = false → decode w = .jsrr (.ofBits (w.extractLsb' 6 3))) ∧
  ∀ (baseR : Reg) (s : State),
    Transfers (exec (.jsrr baseR) s) s (some s.pc) (if baseR = .r7 then s.pc else getReg baseR s)

/-- 93_implementation_defined.md U9: the parameter JSRR_LINK_FIRST decides only where JSRR R7 jumps, and `exec` has its
default, true. -/
def Obligations.JsrrOrderIsTheParameter : Prop :=
  ∀ (c : Config) (baseR : Reg) (s : State),
    exec (.jsrr baseR) s = execWith .standard (.jsrr baseR) s ∧
    Transfers (execWith c (.jsrr baseR) s) s (some s.pc)
      (if baseR = .r7 ∧ c.jsrrLinkFirst = true then s.pc else getReg baseR s)

/-- R114: JMP, and RET as its form with R7. -/
def Obligations.JmpGoesToItsBase : Prop :=
  (∀ w : Word, w.extractLsb' 12 4 = 0xC#4 → decode w = .jmp (.ofBits (w.extractLsb' 6 3))) ∧
  ∀ (baseR : Reg) (s : State), Transfers (exec (.jmp baseR) s) s none (getReg baseR s)

/-! ### Operate (41_operate.md) -/

/-- R121 and R122: both forms of ADD. -/
def Obligations.AddWritesTheWrappedSum : Prop :=
  (∀ w : Word, w.extractLsb' 12 4 = 0x1#4 → w.getLsbD 5 = false →
    decode w = .addReg (.ofBits (w.extractLsb' 9 3)) (.ofBits (w.extractLsb' 6 3)) (.ofBits (w.extractLsb' 0 3))) ∧
  (∀ w : Word, w.extractLsb' 12 4 = 0x1#4 → w.getLsbD 5 = true →
    decode w = .addImm (.ofBits (w.extractLsb' 9 3)) (.ofBits (w.extractLsb' 6 3)) (w.extractLsb' 0 5)) ∧
  (∀ (dr sr1 sr2 : Reg) (s : State),
    Results (exec (.addReg dr sr1 sr2) s) s s dr
      (BitVec.ofNat 16 ((getReg sr1 s).toNat + (getReg sr2 s).toNat))) ∧
  ∀ (dr sr1 : Reg) (imm5 : BitVec 5) (s : State),
    Results (exec (.addImm dr sr1 imm5) s) s s dr (BitVec.ofInt 16 ((getReg sr1 s).toNat + imm5.toInt))

/-- R123 and R124: both forms of AND. -/
def Obligations.AndWritesTheBitwiseAnd : Prop :=
  (∀ w : Word, w.extractLsb' 12 4 = 0x5#4 → w.getLsbD 5 = false →
    decode w = .andReg (.ofBits (w.extractLsb' 9 3)) (.ofBits (w.extractLsb' 6 3)) (.ofBits (w.extractLsb' 0 3))) ∧
  (∀ w : Word, w.extractLsb' 12 4 = 0x5#4 → w.getLsbD 5 = true →
    decode w = .andImm (.ofBits (w.extractLsb' 9 3)) (.ofBits (w.extractLsb' 6 3)) (w.extractLsb' 0 5)) ∧
  (∀ (dr sr1 sr2 : Reg) (s : State),
    Results (exec (.andReg dr sr1 sr2) s) s s dr (getReg sr1 s &&& getReg sr2 s)) ∧
  ∀ (dr sr1 : Reg) (imm5 : BitVec 5) (s : State),
    Results (exec (.andImm dr sr1 imm5) s) s s dr (getReg sr1 s &&& sext5 imm5)

/-- R125: NOT. -/
def Obligations.NotWritesTheComplement : Prop :=
  (∀ w : Word, w.extractLsb' 12 4 = 0x9#4 →
    decode w = .not (.ofBits (w.extractLsb' 9 3)) (.ofBits (w.extractLsb' 6 3))) ∧
  ∀ (dr sr : Reg) (s : State), Results (exec (.not dr sr) s) s s dr (0xFFFF#16 - getReg sr s)

/-! ### Load, store and address (42_load_store.md) -/

/-- R131, R133 and R135: LD, LDR and LDI. The provider ends as the reads leave it. -/
def Obligations.LoadsWriteTheWordRead : Prop :=
  (∀ w : Word, w.extractLsb' 12 4 = 0x2#4 → decode w = .ld (.ofBits (w.extractLsb' 9 3)) (w.extractLsb' 0 9)) ∧
  (∀ w : Word, w.extractLsb' 12 4 = 0x6#4 →
    decode w = .ldr (.ofBits (w.extractLsb' 9 3)) (.ofBits (w.extractLsb' 6 3)) (w.extractLsb' 0 6)) ∧
  (∀ w : Word, w.extractLsb' 12 4 = 0xA#4 → decode w = .ldi (.ofBits (w.extractLsb' 9 3)) (w.extractLsb' 0 9)) ∧
  (∀ (dr : Reg) (off9 : BitVec 9) (s : State),
    Results (exec (.ld dr off9) s) s (memRead (s.pc + sext9 off9) s).2 dr (memRead (s.pc + sext9 off9) s).1) ∧
  (∀ (dr baseR : Reg) (off6 : BitVec 6) (s : State),
    Results (exec (.ldr dr baseR off6) s) s (memRead (getReg baseR s + sext6 off6) s).2 dr
      (memRead (getReg baseR s + sext6 off6) s).1) ∧
  ∀ (dr : Reg) (off9 : BitVec 9) (s : State),
    let pointer := memRead (s.pc + sext9 off9) s
    Results (exec (.ldi dr off9) s) s (memRead pointer.1 pointer.2).2 dr (memRead pointer.1 pointer.2).1

/-- R132, R134 and R136: ST, STR and STI. The address stored to is the effective address, and for STI the pointer read
before the store. -/
def Obligations.StoresWriteOneWord : Prop :=
  (∀ w : Word, w.extractLsb' 12 4 = 0x3#4 → decode w = .st (.ofBits (w.extractLsb' 9 3)) (w.extractLsb' 0 9)) ∧
  (∀ w : Word, w.extractLsb' 12 4 = 0x7#4 →
    decode w = .str (.ofBits (w.extractLsb' 9 3)) (.ofBits (w.extractLsb' 6 3)) (w.extractLsb' 0 6)) ∧
  (∀ w : Word, w.extractLsb' 12 4 = 0xB#4 → decode w = .sti (.ofBits (w.extractLsb' 9 3)) (w.extractLsb' 0 9)) ∧
  (∀ (sr : Reg) (off9 : BitVec 9) (s : State),
    Stores (exec (.st sr off9) s) s s (s.pc + sext9 off9) (getReg sr s)) ∧
  (∀ (sr baseR : Reg) (off6 : BitVec 6) (s : State),
    Stores (exec (.str sr baseR off6) s) s s (getReg baseR s + sext6 off6) (getReg sr s)) ∧
  ∀ (sr : Reg) (off9 : BitVec 9) (s : State),
    let pointer := memRead (s.pc + sext9 off9) s
    Stores (exec (.sti sr off9) s) s pointer.2 pointer.1 (getReg sr s)

/-- R137: LEA. -/
def Obligations.LeaWritesTheAddress : Prop :=
  (∀ w : Word, w.extractLsb' 12 4 = 0xE#4 → decode w = .lea (.ofBits (w.extractLsb' 9 3)) (w.extractLsb' 0 9)) ∧
  ∀ (dr : Reg) (off9 : BitVec 9) (s : State), Results (exec (.lea dr off9) s) s s dr (s.pc + sext9 off9)

/-! ### System (43_system.md) -/

/-- R150 and R151: RTI and RES always take IllegalOpcode, in every state, and change nothing but RUN. -/
def Obligations.RtiAndResTakeIllegalOpcode : Prop :=
  (∀ w : Word, w.extractLsb' 12 4 = 0x8#4 → decode w = .rti) ∧
  (∀ w : Word, w.extractLsb' 12 4 = 0xD#4 → decode w = .res) ∧
  ∀ s : State, exec .rti s = .next { s with run := .faulted .illegalOpcode } ∧
    exec .res s = .next { s with run := .faulted .illegalOpcode }

/-- R152: TRAP with a vector that is not special; which vectors are special is as decisions D12 and D15 have it
(log entries 13 and 16). -/
def Obligations.TrapGoesThroughTheVectorTable : Prop :=
  (∀ w : Word, w.extractLsb' 12 4 = 0xF#4 → decode w = .trap (w.extractLsb' 0 8)) ∧
  ∀ (v : BitVec 8) (s : State), v ∉ [0x20#8, 0x21#8, 0x22#8, 0x23#8, 0x25#8] →
    Transfers (exec (.trap v) s) s (some s.pc) (memGet s.mem v.toNat)

/-- 43_system.md section 2 (R154; that R7 and PC are written first is decision D12): TRAP x25 halts. -/
def Obligations.HaltTransfersAndHalts : Prop :=
  ∀ s : State, ∃ t, exec (.trap 0x25#8) s = .next t ∧ t.run = .halted ∧ getReg .r7 t = s.pc ∧
    t.pc = memGet s.mem 0x25 ∧ KeepsRegsBut [.r7] s t ∧ t.cond = s.cond ∧ KeepsMemory s t ∧ KeepsProvider s t

/-- 43_system.md section 2 (R155, R156; decision D13): GETC with a character pending. -/
def Obligations.GetcDeliversTheCharacter : Prop :=
  ∀ (s : State) (c : Byte) (rest : List Byte), s.shut = false → s.inq = c :: rest → s.draws.headD false = false →
    ∃ t, exec (.trap 0x20#8) s = .next t ∧ (getReg .r0 t).toNat = c.toNat ∧ getReg .r7 t = s.pc ∧
      KeepsRegsBut [.r0, .r7] s t ∧ t.pc = s.pc ∧ t.cond = s.cond ∧ t.run = s.run ∧ KeepsMemory s t ∧
      t.inq = rest ∧ t.outq = s.outq ∧ t.shut = false ∧ t.draws = s.draws.tail

/-- 43_system.md section 2 (R155, R157; decision D13): OUT appends the low byte of R0. -/
def Obligations.OutWritesTheLowByte : Prop :=
  ∀ s : State, s.shut = false → s.draws.headD false = false →
    ∃ t, exec (.trap 0x21#8) s = .next t ∧ t.outq = s.outq ++ [(getReg .r0 s).extractLsb' 0 8] ∧
      getReg .r7 t = s.pc ∧ KeepsRegsBut [.r7] s t ∧ t.pc = s.pc ∧ t.cond = s.cond ∧ t.run = s.run ∧
      KeepsMemory s t ∧ t.inq = s.inq ∧ t.shut = false ∧ t.draws = s.draws.tail

/-- 43_system.md section 2 (R155, R158; decisions D13, D24): PUTS writes the low byte of each word of the string at R0,
up to its zero word, for every string that lies in ordinary memory. -/
def Obligations.PutsWritesTheString : Prop :=
  ∀ (s : State) (cs : List Word), s.shut = false → stringAt s.mem (getReg .r0 s) cs →
    (∀ d ∈ s.draws.take cs.length, d = false) →
    ∃ t, exec (.trap 0x22#8) s = .next t ∧ t.outq = s.outq ++ cs.map (fun w => w.extractLsb' 0 8) ∧
      getReg .r7 t = s.pc ∧ KeepsRegsBut [.r7] s t ∧ t.pc = s.pc ∧ t.cond = s.cond ∧ t.run = s.run ∧
      KeepsMemory s t ∧ t.inq = s.inq ∧ t.shut = false ∧ t.draws = s.draws.drop cs.length

/-- 43_system.md section 2 (R155, R159; decisions D13, D14): IN with a character pending, for every prompt and echo;
`exec` has the defaults, no prompt and no echo. -/
def Obligations.InPromptsReadsAndEchoes : Prop :=
  (∀ s : State, exec (.trap 0x23#8) s = execWith .standard (.trap 0x23#8) s) ∧
  ∀ (c : Config) (s : State) (ch : Byte) (rest : List Byte), s.shut = false → s.inq = ch :: rest →
    (∀ d ∈ s.draws.take (c.inPrompt.length + 1 + (if c.inEcho then 1 else 0)), d = false) →
    ∃ t, execWith c (.trap 0x23#8) s = .next t ∧ (getReg .r0 t).toNat = ch.toNat ∧ getReg .r7 t = s.pc ∧
      KeepsRegsBut [.r0, .r7] s t ∧ t.pc = s.pc ∧ t.cond = s.cond ∧ t.run = s.run ∧ KeepsMemory s t ∧
      t.inq = rest ∧ t.outq = s.outq ++ c.inPrompt ++ (if c.inEcho then [ch] else []) ∧ t.shut = false ∧
      t.draws = s.draws.drop (c.inPrompt.length + 1 + (if c.inEcho then 1 else 0))

/-- 43_system.md section 2 (R155; decisions D16, D19, D21): with the provider shut down, GETC, OUT, IN, and PUTS of a
string that is not empty, take IOProviderError with no register, flag, memory word or provider queue changed, IN under
any prompt and echo. PUTS of an empty string makes no call and completes. -/
def Obligations.ShutDownProviderFaultsServices : Prop :=
  (∀ (v : BitVec 8) (s : State), v ∈ [0x20#8, 0x21#8, 0x23#8] → s.shut = true →
    ∃ t, Faults (exec (.trap v) s) s .ioProviderError t ∧ t.inq = s.inq ∧ t.outq = s.outq ∧ t.shut = true) ∧
  (∀ (c : Config) (s : State), s.shut = true →
    ∃ t, Faults (execWith c (.trap 0x23#8) s) s .ioProviderError t ∧ t.inq = s.inq ∧ t.outq = s.outq ∧
      t.shut = true) ∧
  (∀ s : State, s.shut = true → (memRead (getReg .r0 s) s).1 ≠ 0x0000#16 →
    ∃ t, Faults (exec (.trap 0x22#8) s) s .ioProviderError t ∧ t.inq = s.inq ∧ t.outq = s.outq ∧ t.shut = true) ∧
  ∀ s : State, s.shut = true → (memRead (getReg .r0 s) s).1 = 0x0000#16 →
    Transfers (exec (.trap 0x22#8) s) s (some s.pc) s.pc

/-- 43_system.md section 2 (R155; decisions D16, D19; the choices are the model's field `draws`, log entries 4 and 5):
a call the provider chooses to fail ends the service with IOProviderError; the bytes written before it stay written, a
failing `readInput` takes no character, and a character taken before it stays consumed: by a PUTS scan over KBDR, and by
an IN whose echo fails. -/
def Obligations.ChosenFailuresFaultServices : Prop :=
  (∀ (s : State) (rest : List Bool), s.shut = false → s.draws = true :: rest →
    ∃ t, Faults (exec (.trap 0x21#8) s) s .ioProviderError t ∧ t.inq = s.inq ∧ t.outq = s.outq ∧ t.draws = rest) ∧
  (∀ (v : BitVec 8) (s : State) (rest : List Bool), v ∈ [0x20#8, 0x23#8] → s.shut = false → s.inq ≠ [] →
    s.draws = true :: rest →
    ∃ t, Faults (exec (.trap v) s) s .ioProviderError t ∧ t.inq = s.inq ∧ t.outq = s.outq ∧ t.draws = rest) ∧
  (∀ (s : State) (cs : List Word) (k : Nat) (rest : List Bool), s.shut = false → stringAt s.mem (getReg .r0 s) cs →
    k < cs.length → s.draws = List.replicate k false ++ true :: rest →
    ∃ t, Faults (exec (.trap 0x22#8) s) s .ioProviderError t ∧ t.inq = s.inq ∧
      t.outq = s.outq ++ (cs.take k).map (fun w => w.extractLsb' 0 8) ∧ t.draws = rest) ∧
  (∀ (s u : State) (cs : List Word) (w : Word) (rest : List Bool), s.shut = false →
    readsFrom (getReg .r0 s) s (cs ++ [w]) u → (∀ x ∈ cs ++ [w], x ≠ 0x0000#16) →
    s.draws = List.replicate cs.length false ++ true :: rest →
    ∃ t, Faults (exec (.trap 0x22#8) s) s .ioProviderError t ∧ t.inq = u.inq ∧
      t.outq = s.outq ++ cs.map (fun w => w.extractLsb' 0 8) ∧ t.draws = rest) ∧
  (∀ (c : Config) (s : State) (k : Nat) (rest : List Bool), s.shut = false → s.inq ≠ [] → k < c.inPrompt.length →
    s.draws = List.replicate k false ++ true :: rest →
    ∃ t, Faults (execWith c (.trap 0x23#8) s) s .ioProviderError t ∧ t.inq = s.inq ∧
      t.outq = s.outq ++ c.inPrompt.take k ∧ t.draws = rest) ∧
  (∀ (c : Config) (s : State) (rest : List Bool), s.shut = false → s.inq ≠ [] →
    s.draws = List.replicate c.inPrompt.length false ++ true :: rest →
    ∃ t, Faults (execWith c (.trap 0x23#8) s) s .ioProviderError t ∧ t.inq = s.inq ∧
      t.outq = s.outq ++ c.inPrompt ∧ t.draws = rest) ∧
  ∀ (c : Config) (s : State) (ch : Byte) (chars : List Byte) (rest : List Bool), c.inEcho = true → s.shut = false →
    s.inq = ch :: chars → s.draws = List.replicate (c.inPrompt.length + 1) false ++ true :: rest →
    ∃ t, Faults (execWith c (.trap 0x23#8) s) s .ioProviderError t ∧ t.inq = chars ∧
      t.outq = s.outq ++ c.inPrompt ∧ t.draws = rest

/-- 43_system.md section 2 and 60_exceptions.md section 5 (R155, R192; decision D21; a step that is not enabled answers
the same state, log entry 6): GETC and IN with nothing pending wait, and the step leaves the whole state as it was,
under any prompt and echo: a waiting IN has written no prompt. -/
def Obligations.GetcAndInWaitForInput : Prop :=
  (∀ (v : BitVec 8) (s : State), v ∈ [0x20#8, 0x23#8] → s.shut = false → s.inq = [] →
    exec (.trap v) s = .next { s with pc := s.pc - 1#16 }) ∧
  (∀ (c : Config) (v : BitVec 8) (s : State), v ∈ [0x20#8, 0x23#8] → s.shut = false → s.inq = [] →
    execWith c (.trap v) s = .next { s with pc := s.pc - 1#16 }) ∧
  ∀ (v : BitVec 8) (s : State), v ∈ [0x20#8, 0x23#8] → s.run = .running → s.shut = false → s.inq = [] →
    decode (fetchWord s) = .trap v → step s = .next s

/-! ### Rules over all instructions -/

/-- 10_state.md R32: after ADD, AND, NOT, LD, LDI, LDR and LEA, COND is the flag of the destination's new value; after
every other instruction COND is unchanged. -/
def Obligations.FlagsFollowOnlyFlagSettingInstructions : Prop :=
  ∀ (i : Instr) (s t : State), exec i s = .next t →
    match flagDest i with
    | some dr => reflects t.cond (getReg dr t)
    | none => t.cond = s.cond

/-- 10_state.md section 4 (R30): no instruction but BR depends on COND: changed flags change nothing in the next state
but, where the instruction sets no flags, those flags themselves. -/
def Obligations.OnlyBrReadsTheFlags : Prop :=
  ∀ (i : Instr) (s t : State) (c : BitVec 3), i.form ≠ .br → exec i s = .next t →
    ∃ u, exec i { s with cond := c } = .next u ∧ u.regs = t.regs ∧ u.pc = t.pc ∧ u.mem = t.mem ∧ u.run = t.run ∧
      KeepsProvider t u ∧ u.cond = (if flagDest i = none then c else t.cond)

/-- 10_state.md section 5 (R33): RUN is Running at construction; an instruction changes it only to Halted by the HALT vector, to
Faulted(IllegalOpcode) by RTI or RES, to Faulted(IOProviderError) by a service trap; both are terminal; no instruction
reads it. That the vector field 0x25 is the HALT vector is decision D12 (log entry 13), and that a step in a terminal
state answers the same state is decision D18 (log entry 16). -/
def Obligations.RunChangesOnlyAsListed : Prop :=
  (∀ c : Config, (State.resetWith c).run = .running) ∧
  (∀ (i : Instr) (s t : State), exec i s = .next t →
    if i = .trap 0x25#8 then t.run = .halted
    else if i = .rti ∨ i = .res then t.run = .faulted .illegalOpcode
    else if i ∈ [.trap 0x20#8, .trap 0x21#8, .trap 0x22#8, .trap 0x23#8] then
      t.run = s.run ∨ t.run = .faulted .ioProviderError
    else t.run = s.run) ∧
  (∀ s : State, s.run ≠ .running → step s = .next s) ∧
  ∀ (i : Instr) (s t : State) (r : RunState), exec i s = .next t →
    ∃ u, exec i { s with run := r } = .next u ∧ u.regs = t.regs ∧ u.pc = t.pc ∧ u.cond = t.cond ∧ u.mem = t.mem ∧
      KeepsProvider t u

/-- 60_exceptions.md section 1 (R172, R173; that the increment stands, and that effects on the provider are kept, is
decision D16): under any parameters, a step that faults leaves PC one past the instruction and R0..R7, COND and memory
unchanged; of the provider it may have taken characters off the front of INQ, appended bytes to OUTQ and used up choices.
With IllegalOpcode the provider too is unchanged, unless the fetch itself read a keyboard address under other opcode
numbers. -/
def Obligations.FaultEntryChangesOnlyPcAndRunOfTheCore : Prop :=
  (∀ (c : Config) (s t : State) (r : FaultReason), s.run = .running → stepWith c s = .next t → t.run = .faulted r →
    t.pc = s.pc + 1#16 ∧ t.regs = s.regs ∧ t.cond = s.cond ∧ KeepsMemory s t ∧ t.shut = s.shut ∧
      (∃ taken, s.inq = taken ++ t.inq) ∧ (∃ written, t.outq = s.outq ++ written) ∧
      ∃ used, s.draws = used ++ t.draws) ∧
  (∀ (c : Config) (s t : State), s.run = .running → ordinary s.pc → stepWith c s = .next t →
    t.run = .faulted .illegalOpcode → KeepsProvider s t) ∧
  ∀ s t : State, s.run = .running → step s = .next t → t.run = .faulted .illegalOpcode → KeepsProvider s t

/-- 10_state.md section 2 (R22): an instruction writes no register but those of the table's last column, and no register
outside the table's middle column can change anything in the next state but itself. -/
def Obligations.RegistersAreUsedAsTabulated : Prop :=
  (∀ (i : Instr) (s t : State), exec i s = .next t → KeepsRegsBut (regsWritten i) s t) ∧
  ∀ (i : Instr) (s t : State) (r : Reg) (v : Word), r ∉ regsRead i → exec i s = .next t →
    ∃ u, exec i (setReg r v s) = .next u ∧ KeepsRegsBut [r] t u ∧ u.pc = t.pc ∧ u.cond = t.cond ∧ u.mem = t.mem ∧
      u.run = t.run ∧ KeepsProvider t u

/-- 20_memory.md section 5 (R62) and section 7 (R66): memory changes only at the one address that ST, STR or STI
stores to. -/
def Obligations.OnlyStoresChangeMemory : Prop :=
  ∀ (i : Instr) (s t : State), exec i s = .next t →
    match storeAddr i s with
    | some a => KeepsMemoryBut a s t
    | none => KeepsMemory s t

/-- 10_state.md section 6 (R37, R38) and 60_exceptions.md section 5 (R189): an instruction uses the provider only by
taking characters off the front of INQ and appending bytes to OUTQ; with the default parameters only OUT and PUTS
append; no instruction shuts the provider down. -/
def Obligations.ProviderIsUsedOnlyThroughItsCalls : Prop :=
  ∀ (i : Instr) (s t : State), exec i s = .next t →
    t.shut = s.shut ∧ (∃ taken, s.inq = taken ++ t.inq) ∧
    ∃ written, t.outq = s.outq ++ written ∧ (written ≠ [] → i = .trap 0x21#8 ∨ i = .trap 0x22#8)

/-- 10_state.md section 3 (R27; the services' PC is decision D13, the waiting row is log entry 6): where every
instruction leaves PC. -/
def Obligations.PcEndsWhereTabulated : Prop :=
  ∀ (i : Instr) (s t : State), exec i s = .next t →
    match i with
    | .br n z p off9 => t.pc = if branchTaken n z p s.cond then s.pc + sext9 off9 else s.pc
    | .jmp baseR => t.pc = getReg baseR s
    | .jsr off11 => t.pc = s.pc + sext11 off11
    | .jsrr baseR => t.pc = if baseR = .r7 then s.pc else getReg baseR s
    | .trap v =>
      if v ∈ [0x20#8, 0x21#8, 0x22#8, 0x23#8] then
        if v ∈ [0x20#8, 0x23#8] ∧ s.shut = false ∧ s.inq = [] then t.pc = s.pc - 1#16 else t.pc = s.pc
      else t.pc = memGet s.mem v.toNat
    | _ => t.pc = s.pc

/-- 30_encoding.md section 5 (R99, the rule's own derivation): a word 0x0000..0x01FF, the zero word among them, does
nothing but advance PC, which wraps. -/
def Obligations.NeverTakenBranchesOnlyAdvancePc : Prop :=
  ∀ s : State, s.run = .running → ordinary s.pc → (memGet s.mem s.pc.toNat).toNat ≤ 0x01FF →
    step s = .next { s with pc := s.pc + 1#16 }

/-- 20_memory.md section 7 (R69, the rule's own derivation): a store over the next instruction is what the next step
executes. -/
def Obligations.StoreIsSeenByTheNextFetch : Prop :=
  ∀ (s : State) (sr : Reg), s.run = .running → ordinary s.pc → ordinary (s.pc + 1#16) →
    decode (memGet s.mem s.pc.toNat) = .st sr 0#9 →
    ∃ t, step s = .next t ∧ t.pc = s.pc + 1#16 ∧ fetchWord t = getReg sr s ∧
      step t = exec (decode (getReg sr s)) { t with pc := s.pc + 2#16 }

/-! ### The provider and the host -/

/-- 10_state.md section 6 and 20_memory.md section 7 (R38, R71; decision D19): the provider's moves change only its own
INQ, OUTQ, SHUT and choices, a new character joins the end of INQ, and one waiting for nothing becomes the one pending. -/
def Obligations.ProviderMovesLeaveTheCoreAlone : Prop :=
  ∀ (s : State) (b : Byte) (fails : List Bool),
    providerArrive b s = { s with inq := s.inq ++ [b] } ∧ providerShutDown s = { s with shut := true } ∧
    providerChoose fails s = { s with draws := fails } ∧
    (s.inq = [] → s.shut = false → (memRead 0xFE02#16 (providerArrive b s)).1.toNat = b.toNat)

/-- 70_reset_and_hazards.md section 3 (R209) and 10_state.md section 8 (R41): `run` within a bound of steps returns a
result exactly when some number of steps of the core within the bound reaches a terminal state, and the result is its
snapshot. -/
def Obligations.RunReturnsTheTerminalSnapshot : Prop :=
  ∀ (c : Config) (fuel : Nat) (s : State) (r : RunResult),
    hostRun c fuel s = some r ↔
      ∃ (k : Nat) (t : State), k ≤ fuel ∧ moves c (List.replicate k .core) s = .next t ∧ t.terminal ∧
        r = ⟨t.run, t.regs, t.pc, t.cond⟩

/-- 70_reset_and_hazards.md R204: an image is big-endian 16-bit words, the first the origin, the others loaded
sequentially from it, whatever the loader does where R204 leaves it open. -/
def Obligations.ImagesLoadSequentiallyFromTheirOrigin : Prop :=
  ∀ (c : Config) (s : State) (origin : Word) (ws : List Word), origin.toNat + ws.length ≤ 65536 →
    ∃ t, loadImages c [(origin :: ws).flatMap (fun w => [w.extractLsb' 8 8, w.extractLsb' 0 8])] s = some t ∧
      (∀ a : Nat, memGet t.mem a =
        if origin.toNat ≤ a ∧ a < origin.toNat + ws.length then ws.getD (a - origin.toNat) 0x0000#16
        else memGet s.mem a) ∧
      t = { s with mem := t.mem }

/-- 43_system.md section 2 (R158; decisions D13, D24): PUTS reads through the memory interface. In general it writes the
low byte of each word that its reads return, up to a zero word, and the provider's input is as the reads leave it. A scan
that reaches 0xFE00 with nothing pending stops there. One that passes it with a character pending reads 0x8000 there and
writes the byte 0x00, and at 0xFE02 consumes the character and writes it. A pending character 0x00, or none, ends a scan
at 0xFE02. -/
def Obligations.PutsReadsThroughTheKeyboard : Prop :=
  (∀ (s u : State) (cs : List Word), s.shut = false → readsFrom (getReg .r0 s) s (cs ++ [0x0000#16]) u →
    (∀ w ∈ cs, w ≠ 0x0000#16) → (∀ d ∈ s.draws.take cs.length, d = false) →
    ∃ t, exec (.trap 0x22#8) s = .next t ∧ t.outq = s.outq ++ cs.map (fun w => w.extractLsb' 0 8) ∧ t.inq = u.inq ∧
      getReg .r7 t = s.pc ∧ KeepsRegsBut [.r7] s t ∧ t.pc = s.pc ∧ t.cond = s.cond ∧ t.run = s.run ∧
      KeepsMemory s t ∧ t.shut = false ∧ t.draws = s.draws.drop cs.length) ∧
  (∀ (s : State) (cs : List Word), s.shut = false → s.inq = [] → wordsAt s.mem (getReg .r0 s) cs →
    getReg .r0 s + BitVec.ofNat 16 cs.length = 0xFE00#16 → (∀ d ∈ s.draws.take cs.length, d = false) →
    ∃ t, exec (.trap 0x22#8) s = .next t ∧ t.run = s.run ∧ t.inq = [] ∧
      t.outq = s.outq ++ cs.map (fun w => w.extractLsb' 0 8)) ∧
  (∀ (s : State) (before after : List Word) (c : Byte) (rest : List Byte), s.shut = false → s.inq = c :: rest →
    c ≠ 0x00#8 → wordsAt s.mem (getReg .r0 s) before →
    getReg .r0 s + BitVec.ofNat 16 before.length = 0xFE00#16 → memGet s.mem 0xFE01 ≠ 0x0000#16 →
    stringAt s.mem 0xFE03#16 after → (∀ d ∈ s.draws.take (before.length + 3 + after.length), d = false) →
    ∃ t, exec (.trap 0x22#8) s = .next t ∧ t.run = s.run ∧ t.inq = rest ∧
      t.outq = s.outq ++ before.map (fun w => w.extractLsb' 0 8) ++
        [0x00#8, (memGet s.mem 0xFE01).extractLsb' 0 8, c] ++ after.map (fun w => w.extractLsb' 0 8)) ∧
  (∀ (s : State) (rest : List Byte), s.shut = false → getReg .r0 s = 0xFE02#16 → s.inq = 0x00#8 :: rest →
    ∃ t, exec (.trap 0x22#8) s = .next t ∧ t.run = s.run ∧ t.inq = rest ∧ t.outq = s.outq) ∧
  ∀ s : State, getReg .r0 s = 0xFE02#16 → s.inq = [] ∨ s.shut = true →
    ∃ t, exec (.trap 0x22#8) s = .next t ∧ t.run = s.run ∧ t.inq = s.inq ∧ t.outq = s.outq

/-! ### The parameters (00_scope.md R5) -/

/-- 10_state.md section 3 (R26) under any parameters of R5: the step is fetch, increment, decode with the opcode numbers
of `c`, execute with the other parameters of `c`; a terminal state is left as it is (decision D18). With every parameter
at its default these are `decode`, `exec` and `step`. -/
def Obligations.StepRunsUnderAnyParameters : Prop :=
  (∀ (c : Config) (s : State), s.run = .running →
    stepWith c s = execWith c (decodeWith c (memRead s.pc s).1) { (memRead s.pc s).2 with pc := s.pc + 1#16 }) ∧
  (∀ (c : Config) (s : State), s.run ≠ .running → stepWith c s = .next s) ∧
  (∀ w : Word, decodeWith .standard w = decode w) ∧
  (∀ (i : Instr) (s : State), execWith .standard i s = exec i s) ∧ ∀ s : State, stepWith .standard s = step s

/-- 00_scope.md section 3 (R5): a parameter changes only what it names. The opcode numbers say which opcode the number in
bits 15..12 stands for, and the fields are read as that opcode's are (decision D2). `JSRR_LINK_FIRST` matters to JSRR R7
alone (U9), and `IN_PROMPT` and `IN_ECHO` to IN alone (decision D14). -/
def Obligations.ParametersChangeOnlyWhatTheyName : Prop :=
  (∀ (c : Config) (w v : Word), v.extractLsb' 12 4 = c.opcodeRow (w.extractLsb' 12 4) →
    v.extractLsb' 0 12 = w.extractLsb' 0 12 → decodeWith c w = decode v) ∧
  (∀ (c : Config) (i : Instr) (s : State), i ≠ .jsrr .r7 → i ≠ .trap 0x23#8 → execWith c i s = exec i s) ∧
  (∀ (c : Config) (s : State), c.jsrrLinkFirst = true → execWith c (.jsrr .r7) s = exec (.jsrr .r7) s) ∧
  ∀ (c : Config) (s : State), c.inPrompt = [] → c.inEcho = false →
    execWith c (.trap 0x23#8) s = exec (.trap 0x23#8) s

/-- 70_reset_and_hazards.md section 2 (R204; the parameter LOADER is decision D25, log entry 10): for an image with an odd
trailing byte, one that runs past 0xFFFF, one without an origin word (the model's reading of the same corner), and for
several images, what is loaded is what the parameter makes of it. -/
def Obligations.LoaderDecidesWhatIsLeftOpen : Prop :=
  (∀ (c : Config) (image : List Byte) (s : State), image.length % 2 = 1 →
    loadImages c [image] s = (c.loader [image]).map (fun ws => hostWrites ws s)) ∧
  (∀ (c : Config) (s : State), loadImages c [[]] s = (c.loader [[]]).map (fun ws => hostWrites ws s)) ∧
  (∀ (c : Config) (s : State) (origin : Word) (ws : List Word), 65536 < origin.toNat + ws.length →
    let image := (origin :: ws).flatMap (fun w => [w.extractLsb' 8 8, w.extractLsb' 0 8])
    loadImages c [image] s = (c.loader [image]).map (fun ws => hostWrites ws s)) ∧
  ∀ (c : Config) (images : List (List Byte)) (s : State), 2 ≤ images.length →
    loadImages c images s = (c.loader images).map (fun ws => hostWrites ws s)
end

