-- ==== Sys2Proof/Laws/State.lean ====
section
/-! SUPPORT. One lemma per field per update of the state, each true by definition, so that no proof unfolds a record
update; and the same for the word a general register holds. -/

namespace Sys2Proof.Machine

/-! ### setReg -/

@[simp] theorem setReg_regs (r : Reg) (v : Word) (s : State) : (setReg r v s).regs = s.regs.put r v := rfl
@[simp] theorem setReg_pc (r : Reg) (v : Word) (s : State) : (setReg r v s).pc = s.pc := rfl
@[simp] theorem setReg_cond (r : Reg) (v : Word) (s : State) : (setReg r v s).cond = s.cond := rfl
@[simp] theorem setReg_mem (r : Reg) (v : Word) (s : State) : (setReg r v s).mem = s.mem := rfl
@[simp] theorem setReg_run (r : Reg) (v : Word) (s : State) : (setReg r v s).run = s.run := rfl
@[simp] theorem setReg_inq (r : Reg) (v : Word) (s : State) : (setReg r v s).inq = s.inq := rfl
@[simp] theorem setReg_outq (r : Reg) (v : Word) (s : State) : (setReg r v s).outq = s.outq := rfl
@[simp] theorem setReg_shut (r : Reg) (v : Word) (s : State) : (setReg r v s).shut = s.shut := rfl
@[simp] theorem setReg_draws (r : Reg) (v : Word) (s : State) : (setReg r v s).draws = s.draws := rfl

/-! ### setPc -/

@[simp] theorem setPc_regs (v : Word) (s : State) : (setPc v s).regs = s.regs := rfl
@[simp] theorem setPc_pc (v : Word) (s : State) : (setPc v s).pc = v := rfl
@[simp] theorem setPc_cond (v : Word) (s : State) : (setPc v s).cond = s.cond := rfl
@[simp] theorem setPc_mem (v : Word) (s : State) : (setPc v s).mem = s.mem := rfl
@[simp] theorem setPc_run (v : Word) (s : State) : (setPc v s).run = s.run := rfl
@[simp] theorem setPc_inq (v : Word) (s : State) : (setPc v s).inq = s.inq := rfl
@[simp] theorem setPc_outq (v : Word) (s : State) : (setPc v s).outq = s.outq := rfl
@[simp] theorem setPc_shut (v : Word) (s : State) : (setPc v s).shut = s.shut := rfl
@[simp] theorem setPc_draws (v : Word) (s : State) : (setPc v s).draws = s.draws := rfl
@[simp] theorem getReg_setPc (q : Reg) (v : Word) (s : State) : getReg q (setPc v s) = getReg q s := rfl

/-! ### setCond -/

@[simp] theorem setCond_regs (c : BitVec 3) (s : State) : (setCond c s).regs = s.regs := rfl
@[simp] theorem setCond_pc (c : BitVec 3) (s : State) : (setCond c s).pc = s.pc := rfl
@[simp] theorem setCond_cond (c : BitVec 3) (s : State) : (setCond c s).cond = c := rfl
@[simp] theorem setCond_mem (c : BitVec 3) (s : State) : (setCond c s).mem = s.mem := rfl
@[simp] theorem setCond_run (c : BitVec 3) (s : State) : (setCond c s).run = s.run := rfl
@[simp] theorem setCond_inq (c : BitVec 3) (s : State) : (setCond c s).inq = s.inq := rfl
@[simp] theorem setCond_outq (c : BitVec 3) (s : State) : (setCond c s).outq = s.outq := rfl
@[simp] theorem setCond_shut (c : BitVec 3) (s : State) : (setCond c s).shut = s.shut := rfl
@[simp] theorem setCond_draws (c : BitVec 3) (s : State) : (setCond c s).draws = s.draws := rfl
@[simp] theorem getReg_setCond (q : Reg) (c : BitVec 3) (s : State) : getReg q (setCond c s) = getReg q s := rfl

/-! ### dropInput -/

@[simp] theorem dropInput_regs (s : State) : (dropInput s).regs = s.regs := rfl
@[simp] theorem dropInput_pc (s : State) : (dropInput s).pc = s.pc := rfl
@[simp] theorem dropInput_cond (s : State) : (dropInput s).cond = s.cond := rfl
@[simp] theorem dropInput_mem (s : State) : (dropInput s).mem = s.mem := rfl
@[simp] theorem dropInput_run (s : State) : (dropInput s).run = s.run := rfl
@[simp] theorem dropInput_inq (s : State) : (dropInput s).inq = s.inq.tail := rfl
@[simp] theorem dropInput_outq (s : State) : (dropInput s).outq = s.outq := rfl
@[simp] theorem dropInput_shut (s : State) : (dropInput s).shut = s.shut := rfl
@[simp] theorem dropInput_draws (s : State) : (dropInput s).draws = s.draws := rfl
@[simp] theorem getReg_dropInput (q : Reg) (s : State) : getReg q (dropInput s) = getReg q s := rfl

/-! ### pushOutput -/

@[simp] theorem pushOutput_regs (b : Byte) (s : State) : (pushOutput b s).regs = s.regs := rfl
@[simp] theorem pushOutput_pc (b : Byte) (s : State) : (pushOutput b s).pc = s.pc := rfl
@[simp] theorem pushOutput_cond (b : Byte) (s : State) : (pushOutput b s).cond = s.cond := rfl
@[simp] theorem pushOutput_mem (b : Byte) (s : State) : (pushOutput b s).mem = s.mem := rfl
@[simp] theorem pushOutput_run (b : Byte) (s : State) : (pushOutput b s).run = s.run := rfl
@[simp] theorem pushOutput_inq (b : Byte) (s : State) : (pushOutput b s).inq = s.inq := rfl
@[simp] theorem pushOutput_outq (b : Byte) (s : State) : (pushOutput b s).outq = s.outq ++ [b] := rfl
@[simp] theorem pushOutput_shut (b : Byte) (s : State) : (pushOutput b s).shut = s.shut := rfl
@[simp] theorem pushOutput_draws (b : Byte) (s : State) : (pushOutput b s).draws = s.draws := rfl
@[simp] theorem getReg_pushOutput (q : Reg) (b : Byte) (s : State) : getReg q (pushOutput b s) = getReg q s := rfl

/-! ### dropDraw -/

@[simp] theorem dropDraw_regs (s : State) : (dropDraw s).regs = s.regs := rfl
@[simp] theorem dropDraw_pc (s : State) : (dropDraw s).pc = s.pc := rfl
@[simp] theorem dropDraw_cond (s : State) : (dropDraw s).cond = s.cond := rfl
@[simp] theorem dropDraw_mem (s : State) : (dropDraw s).mem = s.mem := rfl
@[simp] theorem dropDraw_run (s : State) : (dropDraw s).run = s.run := rfl
@[simp] theorem dropDraw_inq (s : State) : (dropDraw s).inq = s.inq := rfl
@[simp] theorem dropDraw_outq (s : State) : (dropDraw s).outq = s.outq := rfl
@[simp] theorem dropDraw_shut (s : State) : (dropDraw s).shut = s.shut := rfl
@[simp] theorem dropDraw_draws (s : State) : (dropDraw s).draws = s.draws.tail := rfl
@[simp] theorem getReg_dropDraw (q : Reg) (s : State) : getReg q (dropDraw s) = getReg q s := rfl

/-! ### memWrite -/

@[simp] theorem memWrite_regs (a v : Word) (s : State) : (memWrite a v s).regs = s.regs := rfl
@[simp] theorem memWrite_pc (a v : Word) (s : State) : (memWrite a v s).pc = s.pc := rfl
@[simp] theorem memWrite_cond (a v : Word) (s : State) : (memWrite a v s).cond = s.cond := rfl
@[simp] theorem memWrite_mem (a v : Word) (s : State) : (memWrite a v s).mem = memSet s.mem a.toNat v := rfl
@[simp] theorem memWrite_run (a v : Word) (s : State) : (memWrite a v s).run = s.run := rfl
@[simp] theorem memWrite_inq (a v : Word) (s : State) : (memWrite a v s).inq = s.inq := rfl
@[simp] theorem memWrite_outq (a v : Word) (s : State) : (memWrite a v s).outq = s.outq := rfl
@[simp] theorem memWrite_shut (a v : Word) (s : State) : (memWrite a v s).shut = s.shut := rfl
@[simp] theorem memWrite_draws (a v : Word) (s : State) : (memWrite a v s).draws = s.draws := rfl
@[simp] theorem getReg_memWrite (q : Reg) (a v : Word) (s : State) : getReg q (memWrite a v s) = getReg q s := rfl

/-! ### takeFault -/

@[simp] theorem takeFault_regs (f : FaultReason) (s : State) : (takeFault f s).regs = s.regs := rfl
@[simp] theorem takeFault_pc (f : FaultReason) (s : State) : (takeFault f s).pc = s.pc := rfl
@[simp] theorem takeFault_cond (f : FaultReason) (s : State) : (takeFault f s).cond = s.cond := rfl
@[simp] theorem takeFault_mem (f : FaultReason) (s : State) : (takeFault f s).mem = s.mem := rfl
@[simp] theorem takeFault_run (f : FaultReason) (s : State) : (takeFault f s).run = .faulted f := rfl
@[simp] theorem takeFault_inq (f : FaultReason) (s : State) : (takeFault f s).inq = s.inq := rfl
@[simp] theorem takeFault_outq (f : FaultReason) (s : State) : (takeFault f s).outq = s.outq := rfl
@[simp] theorem takeFault_shut (f : FaultReason) (s : State) : (takeFault f s).shut = s.shut := rfl
@[simp] theorem takeFault_draws (f : FaultReason) (s : State) : (takeFault f s).draws = s.draws := rfl
@[simp] theorem getReg_takeFault (q : Reg) (f : FaultReason) (s : State) : getReg q (takeFault f s) = getReg q s := rfl

/-! ### halt -/

@[simp] theorem halt_regs (s : State) : (halt s).regs = s.regs := rfl
@[simp] theorem halt_pc (s : State) : (halt s).pc = s.pc := rfl
@[simp] theorem halt_cond (s : State) : (halt s).cond = s.cond := rfl
@[simp] theorem halt_mem (s : State) : (halt s).mem = s.mem := rfl
@[simp] theorem halt_run (s : State) : (halt s).run = .halted := rfl
@[simp] theorem halt_inq (s : State) : (halt s).inq = s.inq := rfl
@[simp] theorem halt_outq (s : State) : (halt s).outq = s.outq := rfl
@[simp] theorem halt_shut (s : State) : (halt s).shut = s.shut := rfl
@[simp] theorem halt_draws (s : State) : (halt s).draws = s.draws := rfl
@[simp] theorem getReg_halt (q : Reg) (s : State) : getReg q (halt s) = getReg q s := rfl

/-! ### suspend -/

@[simp] theorem suspend_regs (s : State) : (suspend s).regs = s.regs := rfl
@[simp] theorem suspend_pc (s : State) : (suspend s).pc = s.pc - 1#16 := rfl
@[simp] theorem suspend_cond (s : State) : (suspend s).cond = s.cond := rfl
@[simp] theorem suspend_mem (s : State) : (suspend s).mem = s.mem := rfl
@[simp] theorem suspend_run (s : State) : (suspend s).run = s.run := rfl
@[simp] theorem suspend_inq (s : State) : (suspend s).inq = s.inq := rfl
@[simp] theorem suspend_outq (s : State) : (suspend s).outq = s.outq := rfl
@[simp] theorem suspend_shut (s : State) : (suspend s).shut = s.shut := rfl
@[simp] theorem suspend_draws (s : State) : (suspend s).draws = s.draws := rfl
@[simp] theorem getReg_suspend (q : Reg) (s : State) : getReg q (suspend s) = getReg q s := rfl

/-! ### setcc -/

@[simp] theorem setcc_regs (v : Word) (s : State) : (setcc v s).regs = s.regs := rfl
@[simp] theorem setcc_pc (v : Word) (s : State) : (setcc v s).pc = s.pc := rfl
@[simp] theorem setcc_cond (v : Word) (s : State) : (setcc v s).cond = flagBits (flagOf v) := rfl
@[simp] theorem setcc_mem (v : Word) (s : State) : (setcc v s).mem = s.mem := rfl
@[simp] theorem setcc_run (v : Word) (s : State) : (setcc v s).run = s.run := rfl
@[simp] theorem setcc_inq (v : Word) (s : State) : (setcc v s).inq = s.inq := rfl
@[simp] theorem setcc_outq (v : Word) (s : State) : (setcc v s).outq = s.outq := rfl
@[simp] theorem setcc_shut (v : Word) (s : State) : (setcc v s).shut = s.shut := rfl
@[simp] theorem setcc_draws (v : Word) (s : State) : (setcc v s).draws = s.draws := rfl
@[simp] theorem getReg_setcc (q : Reg) (v : Word) (s : State) : getReg q (setcc v s) = getReg q s := rfl

/-! ### writeResult -/

@[simp] theorem writeResult_regs (dr : Reg) (v : Word) (s : State) : (writeResult dr v s).regs = s.regs.put dr v := rfl
@[simp] theorem writeResult_pc (dr : Reg) (v : Word) (s : State) : (writeResult dr v s).pc = s.pc := rfl
@[simp] theorem writeResult_cond (dr : Reg) (v : Word) (s : State) : (writeResult dr v s).cond = flagBits (flagOf v) := rfl
@[simp] theorem writeResult_mem (dr : Reg) (v : Word) (s : State) : (writeResult dr v s).mem = s.mem := rfl
@[simp] theorem writeResult_run (dr : Reg) (v : Word) (s : State) : (writeResult dr v s).run = s.run := rfl
@[simp] theorem writeResult_inq (dr : Reg) (v : Word) (s : State) : (writeResult dr v s).inq = s.inq := rfl
@[simp] theorem writeResult_outq (dr : Reg) (v : Word) (s : State) : (writeResult dr v s).outq = s.outq := rfl
@[simp] theorem writeResult_shut (dr : Reg) (v : Word) (s : State) : (writeResult dr v s).shut = s.shut := rfl
@[simp] theorem writeResult_draws (dr : Reg) (v : Word) (s : State) : (writeResult dr v s).draws = s.draws := rfl

/-! ### link -/

@[simp] theorem link_regs (s : State) : (link s).regs = s.regs.put .r7 s.pc := rfl
@[simp] theorem link_pc (s : State) : (link s).pc = s.pc := rfl
@[simp] theorem link_cond (s : State) : (link s).cond = s.cond := rfl
@[simp] theorem link_mem (s : State) : (link s).mem = s.mem := rfl
@[simp] theorem link_run (s : State) : (link s).run = s.run := rfl
@[simp] theorem link_inq (s : State) : (link s).inq = s.inq := rfl
@[simp] theorem link_outq (s : State) : (link s).outq = s.outq := rfl
@[simp] theorem link_shut (s : State) : (link s).shut = s.shut := rfl
@[simp] theorem link_draws (s : State) : (link s).draws = s.draws := rfl

/-! ### providerArrive -/

@[simp] theorem providerArrive_regs (b : Byte) (s : State) : (providerArrive b s).regs = s.regs := rfl
@[simp] theorem providerArrive_pc (b : Byte) (s : State) : (providerArrive b s).pc = s.pc := rfl
@[simp] theorem providerArrive_cond (b : Byte) (s : State) : (providerArrive b s).cond = s.cond := rfl
@[simp] theorem providerArrive_mem (b : Byte) (s : State) : (providerArrive b s).mem = s.mem := rfl
@[simp] theorem providerArrive_run (b : Byte) (s : State) : (providerArrive b s).run = s.run := rfl
@[simp] theorem providerArrive_inq (b : Byte) (s : State) : (providerArrive b s).inq = s.inq ++ [b] := rfl
@[simp] theorem providerArrive_outq (b : Byte) (s : State) : (providerArrive b s).outq = s.outq := rfl
@[simp] theorem providerArrive_shut (b : Byte) (s : State) : (providerArrive b s).shut = s.shut := rfl
@[simp] theorem providerArrive_draws (b : Byte) (s : State) : (providerArrive b s).draws = s.draws := rfl
@[simp] theorem getReg_providerArrive (q : Reg) (b : Byte) (s : State) : getReg q (providerArrive b s) = getReg q s := rfl

/-! ### providerShutDown -/

@[simp] theorem providerShutDown_regs (s : State) : (providerShutDown s).regs = s.regs := rfl
@[simp] theorem providerShutDown_pc (s : State) : (providerShutDown s).pc = s.pc := rfl
@[simp] theorem providerShutDown_cond (s : State) : (providerShutDown s).cond = s.cond := rfl
@[simp] theorem providerShutDown_mem (s : State) : (providerShutDown s).mem = s.mem := rfl
@[simp] theorem providerShutDown_run (s : State) : (providerShutDown s).run = s.run := rfl
@[simp] theorem providerShutDown_inq (s : State) : (providerShutDown s).inq = s.inq := rfl
@[simp] theorem providerShutDown_outq (s : State) : (providerShutDown s).outq = s.outq := rfl
@[simp] theorem providerShutDown_shut (s : State) : (providerShutDown s).shut = true := rfl
@[simp] theorem providerShutDown_draws (s : State) : (providerShutDown s).draws = s.draws := rfl
@[simp] theorem getReg_providerShutDown (q : Reg) (s : State) : getReg q (providerShutDown s) = getReg q s := rfl

/-! ### providerChoose -/

@[simp] theorem providerChoose_regs (fs : List Bool) (s : State) : (providerChoose fs s).regs = s.regs := rfl
@[simp] theorem providerChoose_pc (fs : List Bool) (s : State) : (providerChoose fs s).pc = s.pc := rfl
@[simp] theorem providerChoose_cond (fs : List Bool) (s : State) : (providerChoose fs s).cond = s.cond := rfl
@[simp] theorem providerChoose_mem (fs : List Bool) (s : State) : (providerChoose fs s).mem = s.mem := rfl
@[simp] theorem providerChoose_run (fs : List Bool) (s : State) : (providerChoose fs s).run = s.run := rfl
@[simp] theorem providerChoose_inq (fs : List Bool) (s : State) : (providerChoose fs s).inq = s.inq := rfl
@[simp] theorem providerChoose_outq (fs : List Bool) (s : State) : (providerChoose fs s).outq = s.outq := rfl
@[simp] theorem providerChoose_shut (fs : List Bool) (s : State) : (providerChoose fs s).shut = s.shut := rfl
@[simp] theorem providerChoose_draws (fs : List Bool) (s : State) : (providerChoose fs s).draws = fs := rfl
@[simp] theorem getReg_providerChoose (q : Reg) (fs : List Bool) (s : State) : getReg q (providerChoose fs s) = getReg q s := rfl

/-! ### Reading a register after a register was written -/

@[simp] theorem Regs.get_put_same (g : Regs) (r : Reg) (v : Word) : (g.put r v).get r = v := by
  cases r <;> rfl

theorem Regs.get_put_ne (g : Regs) {q r : Reg} (v : Word) (h : q ≠ r) : (g.put r v).get q = g.get q := by
  cases r <;> cases q <;> first | rfl | exact absurd rfl h

theorem Regs.get_put (g : Regs) (q r : Reg) (v : Word) : (g.put r v).get q = if q = r then v else g.get q := by
  split
  · subst_vars; simp
  · exact g.get_put_ne v ‹_›

/-- Registers that agree one by one are equal. -/
theorem Regs.ext_get {g h : Regs} (e : ∀ r, g.get r = h.get r) : g = h := by
  cases g; cases h
  simp only [Regs.mk.injEq]
  exact ⟨e .r0, e .r1, e .r2, e .r3, e .r4, e .r5, e .r6, e .r7⟩

theorem getReg_setReg (q r : Reg) (v : Word) (s : State) :
    getReg q (setReg r v s) = if q = r then v else getReg q s := Regs.get_put _ _ _ _

@[simp] theorem getReg_setReg_same (r : Reg) (v : Word) (s : State) : getReg r (setReg r v s) = v :=
  Regs.get_put_same _ _ _

theorem getReg_setReg_ne {q r : Reg} (v : Word) (s : State) (h : q ≠ r) : getReg q (setReg r v s) = getReg q s :=
  Regs.get_put_ne _ _ h

@[simp] theorem getReg_writeResult_same (dr : Reg) (v : Word) (s : State) : getReg dr (writeResult dr v s) = v :=
  Regs.get_put_same _ _ _

theorem getReg_writeResult_ne {q dr : Reg} (v : Word) (s : State) (h : q ≠ dr) :
    getReg q (writeResult dr v s) = getReg q s := Regs.get_put_ne _ _ h

@[simp] theorem getReg_link_r7 (s : State) : getReg .r7 (link s) = s.pc := rfl

theorem getReg_link_ne {q : Reg} (s : State) (h : q ≠ .r7) : getReg q (link s) = getReg q s := Regs.get_put_ne _ _ h

end Sys2Proof.Machine
end

