-- ==== Sys2Proof/Laws/Memory.lean ====
section
/-! SUPPORT. The memory array: a read after a write, the canonical form, and that equal contents are equal lists. -/

namespace Sys2Proof.Machine

/-- An address that no cell lists reads as the reset contents. -/
theorem memGet_unlisted (m : Memory) (a : Nat) (h : ∀ c ∈ m, c.1 ≠ a) : memGet m a = 0#16 := by
  induction m with
  | nil => rfl
  | cons c m ih =>
    rw [memGet, if_neg (h c (by simp)), ih (fun d hd => h d (by simp [hd]))]

theorem memGet_filter_ne (m : Memory) {a b : Nat} (h : b ≠ a) :
    memGet (m.filter (fun c => c.1 ≠ a)) b = memGet m b := by
  induction m with
  | nil => rfl
  | cons c m ih =>
    obtain ⟨k, w⟩ := c
    by_cases hk : k = a
    · subst hk
      have hb : ¬ k = b := fun e => h e.symm
      simpa [memGet, hb] using ih
    · simp only [ne_eq, hk, not_false_eq_true, decide_true, List.filter_cons_of_pos, memGet]
      simp only [ne_eq] at ih
      rw [ih]

theorem memGet_memInsert_same (m : Memory) (a : Nat) (v : Word) (h : ∀ c ∈ m, c.1 ≠ a) :
    memGet (memInsert a v m) a = v := by
  induction m with
  | nil => simp [memInsert, memGet]
  | cons c m ih =>
    obtain ⟨k, w⟩ := c
    rw [memInsert]
    split
    · rw [memGet, if_neg (h (k, w) (by simp)), ih (fun d hd => h d (by simp [hd]))]
    · simp [memGet]

theorem memGet_memInsert_ne (m : Memory) {a b : Nat} (v : Word) (h : b ≠ a) :
    memGet (memInsert a v m) b = memGet m b := by
  have hab : ¬ a = b := fun e => h e.symm
  induction m with
  | nil => simp [memInsert, memGet, hab]
  | cons c m ih =>
    obtain ⟨k, w⟩ := c
    rw [memInsert]
    split
    · rw [memGet, memGet, ih]
    · rw [memGet, if_neg hab]

theorem filter_unlists (m : Memory) (a : Nat) : ∀ c ∈ m.filter (fun c => c.1 ≠ a), c.1 ≠ a := by
  intro c hc
  simpa using (List.mem_filter.mp hc).2

/-- A read after a write to the same address gives the word written. -/
@[simp] theorem memGet_memSet_same (m : Memory) (a : Nat) (v : Word) : memGet (memSet m a v) a = v := by
  rw [memSet]
  split
  · rw [memGet_unlisted _ _ (filter_unlists m a)]; exact Eq.symm ‹_›
  · exact memGet_memInsert_same _ _ _ (filter_unlists m a)

/-- A write leaves every other address alone. -/
theorem memGet_memSet_ne (m : Memory) {a b : Nat} (v : Word) (h : b ≠ a) :
    memGet (memSet m a v) b = memGet m b := by
  rw [memSet]
  split
  · exact memGet_filter_ne m h
  · rw [memGet_memInsert_ne _ _ h, memGet_filter_ne m h]

theorem mem_memInsert {m : Memory} {a : Nat} {v : Word} {c : Cell} (h : c ∈ memInsert a v m) :
    c = (a, v) ∨ c ∈ m := by
  induction m with
  | nil => simpa [memInsert] using h
  | cons d m ih =>
    obtain ⟨k, w⟩ := d
    rw [memInsert] at h
    split at h
    · rcases List.mem_cons.mp h with h | h
      · exact .inr (by simp [h])
      · exact (ih h).imp_right (by intro h; simp [h])
    · exact List.mem_cons.mp h

theorem memInsert_sorted (m : Memory) (a : Nat) (v : Word) (hm : m.Pairwise (fun x y => x.1 < y.1))
    (ha : ∀ c ∈ m, c.1 ≠ a) : (memInsert a v m).Pairwise (fun x y => x.1 < y.1) := by
  induction m with
  | nil => simp [memInsert]
  | cons d m ih =>
    obtain ⟨k, w⟩ := d
    rw [List.pairwise_cons] at hm
    rw [memInsert]
    split
    · rw [List.pairwise_cons]
      refine ⟨fun c hc => ?_, ih hm.2 (fun c hc => ha c (by simp [hc]))⟩
      rcases mem_memInsert hc with rfl | hc
      · assumption
      · exact hm.1 c hc
    · rename_i hka
      have hlt : a < k := by
        have := ha (k, w) (by simp)
        simp only [ne_eq] at this
        omega
      rw [List.pairwise_cons, List.pairwise_cons]
      refine ⟨fun c hc => ?_, hm⟩
      rcases List.mem_cons.mp hc with rfl | hc
      · exact hlt
      · exact hlt.trans (hm.1 c hc)

/-- A write keeps the canonical form. -/
theorem memSet_wf {m : Memory} (hm : m.wf) {a : Nat} (ha : a < memWords) (v : Word) : (memSet m a v).wf := by
  have hf : Memory.wf (m.filter (fun c => c.1 ≠ a)) :=
    ⟨hm.1.filter _, fun c hc => hm.2 c (List.mem_filter.mp hc).1⟩
  rw [memSet]
  split
  · exact hf
  · refine ⟨memInsert_sorted _ _ _ hf.1 (filter_unlists m a), fun c hc => ?_⟩
    rcases mem_memInsert hc with rfl | hc
    · exact ⟨‹_›, ha⟩
    · exact hf.2 c hc

theorem toNat_lt_memWords (a : Word) : a.toNat < memWords := a.isLt

/-- `MemWrite` keeps the canonical form of memory. -/
theorem memWrite_wf {s : State} (h : s.mem.wf) (a v : Word) : (memWrite a v s).mem.wf :=
  memSet_wf h (toNat_lt_memWords a) v

theorem memGet_listed {m : Memory} (hm : m.Pairwise (fun x y => x.1 < y.1)) {c : Cell} (hc : c ∈ m) :
    memGet m c.1 = c.2 := by
  induction m with
  | nil => simp at hc
  | cons d m ih =>
    rw [List.pairwise_cons] at hm
    rw [memGet]
    rcases List.mem_cons.mp hc with rfl | hc
    · simp
    · rw [if_neg (Nat.ne_of_lt (hm.1 c hc)), ih hm.2 hc]

/-- Two memories in canonical form that read alike everywhere are the same list. -/
theorem memory_ext {m n : Memory} (hm : m.wf) (hn : n.wf) (h : ∀ a, memGet m a = memGet n a) : m = n := by
  have sub : ∀ {p q : Memory}, p.wf → q.wf → (∀ a, memGet p a = memGet q a) → ∀ c ∈ p, c ∈ q := by
    intro p q hp hq hpq c hc
    by_contra hnot
    have hv : memGet q c.1 = c.2 := by rw [← hpq, memGet_listed hp.1 hc]
    by_cases hl : ∃ d ∈ q, d.1 = c.1
    · obtain ⟨d, hd, he⟩ := hl
      have h2 : d.2 = c.2 := by rw [← hv, ← he, memGet_listed hq.1 hd]
      exact hnot (by rwa [show c = d from Prod.ext he.symm h2.symm])
    · exact (hp.2 c hc).1 (by rw [← hv]; exact memGet_unlisted _ _ (fun d hd he => hl ⟨d, hd, he⟩))
  have perm : m.Perm n := by
    rw [List.perm_ext_iff_of_nodup]
    · exact fun c => ⟨sub hm hn h c, sub hn hm (fun a => (h a).symm) c⟩
    · exact hm.1.imp (fun h e => absurd (e ▸ h) (Nat.lt_irrefl _))
    · exact hn.1.imp (fun h e => absurd (e ▸ h) (Nat.lt_irrefl _))
  exact perm.eq_of_pairwise (fun _ _ _ _ h1 h2 => absurd h1 (Nat.lt_asymm h2)) hm.1 hn.1

end Sys2Proof.Machine
end

