-- ==== Sys2Proof/Laws/Ops.lean ====
section
/-! SUPPORT. What each shared operation can do, said once: the memory interface, the flags, fetch, and the step. -/

namespace Sys2Proof.Machine

/-! ### MemRead (20_memory.md R52 to R55) -/

theorem memRead_ordinary {a : Word} (h : ordinary a) (s : State) : memRead a s = (memGet s.mem a.toNat, s) := by
  rw [memRead, if_neg (show ¬ a = kbsr from h.1), if_neg (show ¬ a = kbdr from h.2)]

theorem memRead_kbsr (s : State) : memRead kbsr s = (if hasInput s then 0x8000#16 else 0x0000#16, s) := by
  rw [memRead, if_pos rfl]

theorem memRead_kbdr (s : State) :
    memRead kbdr s = if hasInput s then (zext8 (s.inq.headD 0#8), dropInput s) else (0x0000#16, s) := by
  rw [memRead, if_neg (by decide), if_pos rfl]

/-- All that a read can do to the state: nothing, or KBDR's consumption of the pending character. -/
theorem memRead_state (a : Word) (s : State) :
    (memRead a s).2 = s ∨ (a = kbdr ∧ hasInput s = true ∧ (memRead a s).2 = dropInput s) := by
  rw [memRead]
  split
  · exact .inl rfl
  · split
    · split
      · exact .inr ⟨‹_›, ‹_›, rfl⟩
      · exact .inl rfl
    · exact .inl rfl

/-- With nothing pending no read changes the state. -/
theorem memRead_state_of_empty (a : Word) {s : State} (h : s.inq = []) : (memRead a s).2 = s := by
  rcases memRead_state a s with e | ⟨_, e, _⟩
  · exact e
  · simp [hasInput, h] at e

@[simp] theorem memRead_regs (a : Word) (s : State) : (memRead a s).2.regs = s.regs := by
  rcases memRead_state a s with e | ⟨_, _, e⟩ <;> simp [e]
@[simp] theorem memRead_pc (a : Word) (s : State) : (memRead a s).2.pc = s.pc := by
  rcases memRead_state a s with e | ⟨_, _, e⟩ <;> simp [e]
@[simp] theorem memRead_cond (a : Word) (s : State) : (memRead a s).2.cond = s.cond := by
  rcases memRead_state a s with e | ⟨_, _, e⟩ <;> simp [e]
@[simp] theorem memRead_mem (a : Word) (s : State) : (memRead a s).2.mem = s.mem := by
  rcases memRead_state a s with e | ⟨_, _, e⟩ <;> simp [e]
@[simp] theorem memRead_run (a : Word) (s : State) : (memRead a s).2.run = s.run := by
  rcases memRead_state a s with e | ⟨_, _, e⟩ <;> simp [e]
@[simp] theorem memRead_outq (a : Word) (s : State) : (memRead a s).2.outq = s.outq := by
  rcases memRead_state a s with e | ⟨_, _, e⟩ <;> simp [e]
@[simp] theorem memRead_shut (a : Word) (s : State) : (memRead a s).2.shut = s.shut := by
  rcases memRead_state a s with e | ⟨_, _, e⟩ <;> simp [e]
@[simp] theorem memRead_draws (a : Word) (s : State) : (memRead a s).2.draws = s.draws := by
  rcases memRead_state a s with e | ⟨_, _, e⟩ <;> simp [e]
@[simp] theorem getReg_memRead (q : Reg) (a : Word) (s : State) : getReg q (memRead a s).2 = getReg q s := by
  rw [getReg, memRead_regs]; rfl

/-- A read takes at most characters off the front of INQ. -/
theorem memRead_inq (a : Word) (s : State) : ∃ taken, s.inq = taken ++ (memRead a s).2.inq := by
  rcases memRead_state a s with e | ⟨_, _, e⟩ <;> rw [e]
  · exact ⟨[], rfl⟩
  · exact ⟨s.inq.take 1, by cases h : s.inq <;> simp [h]⟩

/-- What a read does depends on memory and the provider alone. -/
theorem memRead_congr (a : Word) {s t : State} (hm : t.mem = s.mem) (hi : t.inq = s.inq) (hs : t.shut = s.shut) :
    (memRead a t).1 = (memRead a s).1 ∧ (memRead a t).2.inq = (memRead a s).2.inq := by
  have hh : hasInput t = hasInput s := by rw [hasInput, hasInput, hi, hs]
  simp only [memRead, hm, hi, hh]
  split
  · exact ⟨rfl, hi⟩
  · split
    · split
      · exact ⟨rfl, by simp [hi]⟩
      · exact ⟨rfl, hi⟩
    · exact ⟨rfl, hi⟩

/-- TRAP's vector table lies in ordinary memory (43_system.md R152). -/
theorem zext8_ordinary (v : BitVec 8) : ordinary (zext8 v) := by
  have h : (zext8 v).toNat < 256 := by
    rw [zext8, BitVec.toNat_setWidth]
    have := v.isLt
    omega
  constructor <;> intro e <;> rw [e] at h <;> simp at h

@[simp] theorem memRead_zext8 (v : BitVec 8) (s : State) :
    memRead (zext8 v) s = (memGet s.mem (zext8 v).toNat, s) := memRead_ordinary (zext8_ordinary v) s

/-! ### MemWrite (R56) -/

@[simp] theorem memGet_memWrite_same (a v : Word) (s : State) : memGet (memWrite a v s).mem a.toNat = v :=
  memGet_memSet_same _ _ _

theorem memGet_memWrite_ne {a : Word} {b : Nat} (v : Word) (s : State) (h : b ≠ a.toNat) :
    memGet (memWrite a v s).mem b = memGet s.mem b := memGet_memSet_ne _ _ h

/-! ### The flags (10_state.md R31) -/

/-- `setcc` leaves the flag of its argument. -/
theorem reflects_flagOf (v : Word) : reflects (flagBits (flagOf v)) v := by
  have hz : v = 0x0000#16 ↔ v.toNat = 0 := by rw [← BitVec.toNat_inj]; simp
  have hn : v.getLsbD 15 = true ↔ ¬ v.toNat ≤ 0x7FFF := by
    rw [show v.getLsbD 15 = v.msb by simp [BitVec.msb_eq_getLsbD_last], BitVec.msb_eq_decide]
    simp only [decide_eq_true_eq]
    omega
  unfold flagOf reflects
  simp only [hz]
  split
  · rfl
  · by_cases hb : v.getLsbD 15 = true
    · rw [if_pos hb, if_neg (hn.mp hb)]; rfl
    · rw [if_neg hb, if_pos (by by_contra h; exact hb (hn.mpr h))]; rfl

theorem oneHot_flagBits (f : Flag) : oneHot (flagBits f) := by cases f <;> decide

/-- Writing a result is what `Results` says, whatever else the read of its operand did to the provider. -/
theorem results_writeResult {s p : State} {dr : Reg} {v : Word} (hr : p.regs = s.regs) (hpc : p.pc = s.pc)
    (hm : p.mem = s.mem) (hrun : p.run = s.run) : Results (.next (writeResult dr v p)) s p dr v :=
  ⟨_, rfl, by simp, by simpa using reflects_flagOf v,
    fun q hq => by
      rw [getReg_writeResult_ne _ _ (by simpa using hq), getReg, getReg, hr],
    by simp [hpc], fun a => by simp [hm], by simp [hrun], by simp [KeepsProvider]⟩

/-- A store is what `Stores` says, whatever the read of its pointer did to the provider. -/
theorem stores_memWrite {s p : State} (a v : Word) (hr : p.regs = s.regs) (hpc : p.pc = s.pc) (hc : p.cond = s.cond)
    (hm : p.mem = s.mem) (hrun : p.run = s.run) : Stores (.next (memWrite a v p)) s p a v :=
  ⟨_, rfl, by simp, fun b hb => by rw [memGet_memWrite_ne _ _ hb, hm], by simp [hr], by simp [hc], by simp [hpc],
    by simp [hrun], by simp [KeepsProvider]⟩

/-! ### Fetch and step (10_state.md R26, R34) -/

@[simp] theorem afterFetch_regs (s : State) : (afterFetch s).regs = s.regs := by simp [afterFetch]
@[simp] theorem afterFetch_pc (s : State) : (afterFetch s).pc = s.pc + 1#16 := rfl
@[simp] theorem afterFetch_cond (s : State) : (afterFetch s).cond = s.cond := by simp [afterFetch]
@[simp] theorem afterFetch_mem (s : State) : (afterFetch s).mem = s.mem := by simp [afterFetch]
@[simp] theorem afterFetch_run (s : State) : (afterFetch s).run = s.run := by simp [afterFetch]
@[simp] theorem afterFetch_inq (s : State) : (afterFetch s).inq = (memRead s.pc s).2.inq := rfl
@[simp] theorem afterFetch_outq (s : State) : (afterFetch s).outq = s.outq := by simp [afterFetch]
@[simp] theorem afterFetch_shut (s : State) : (afterFetch s).shut = s.shut := by simp [afterFetch]
@[simp] theorem afterFetch_draws (s : State) : (afterFetch s).draws = s.draws := by simp [afterFetch]

theorem step_running {s : State} (h : s.run = .running) : step s = exec (decode (fetchWord s)) (afterFetch s) := by
  rw [step, canStep, h]; rfl

theorem step_terminal {s : State} (h : s.terminal) : step s = .next s := by
  rw [step, canStep, if_neg (by simpa using h)]

/-- All that a step can be: an instruction's meaning after fetch and increment, or nothing in a terminal state. -/
theorem step_cases (s : State) :
    (s.run = .running ∧ step s = exec (decode (fetchWord s)) (afterFetch s)) ∨ (s.terminal ∧ step s = .next s) := by
  by_cases h : s.run = .running
  · exact .inl ⟨h, step_running h⟩
  · exact .inr ⟨h, step_terminal h⟩

/-! ### The machine under any parameters (00_scope.md R5) -/

@[simp] theorem decodeWith_standard (w : Word) : decodeWith .standard w = decode w := rfl

@[simp] theorem execWith_standard (i : Instr) (s : State) : execWith .standard i s = exec i s := by cases i <;> rfl

@[simp] theorem stepWith_standard (s : State) : stepWith .standard s = step s := by
  rw [stepWith, execWith_standard, decodeWith_standard, step]

theorem stepWith_running (c : Config) {s : State} (h : s.run = .running) :
    stepWith c s = execWith c (decodeWith c (fetchWord s)) (afterFetch s) := by
  rw [stepWith, canStep, h]; rfl

theorem stepWith_terminal (c : Config) {s : State} (h : s.terminal) : stepWith c s = .next s := by
  rw [stepWith, canStep, if_neg (by simpa using h)]

/-- JSRR but for R7 as its base does not depend on the parameters. -/
theorem jsrrWith_of_ne (c : Config) {b : Reg} (h : b ≠ .r7) (s : State) : jsrrWith c b s = jsrrWith .standard b s := by
  have e : getReg b (if c.jsrrLinkFirst = true then link s else s) = getReg b (link s) := by
    split
    · rfl
    · exact (getReg_link_ne s h).symm
  rw [jsrrWith, e]; rfl

/-- TRAP but for IN does not depend on the parameters. -/
theorem trapWith_of_ne (c : Config) {v : BitVec 8} (h : v ≠ 0x23#8) (s : State) :
    trapWith c v s = trapWith .standard v s := by
  have hv : ¬ zext8 v = vectIn := fun e => h (by
    have e' := congrArg (BitVec.setWidth 8) e
    simpa [zext8, vectIn] using e')
  simp only [trapWith, if_neg hv]

end Sys2Proof.Machine
end

