-- ==== Sys2Proof/Laws/PerInstr.lean ====
section
/-! SUPPORT. Laws stated once per constructor of `Instr`, and the bit-level lemmas their proofs share. -/

namespace Sys2Proof

theorem Reg.ofBits_bits (r : Reg) : Reg.ofBits r.bits = r := by cases r <;> rfl

theorem Reg.bits_ofBits (b : BitVec 3) : (Reg.ofBits b).bits = b := by
  revert b; decide

/-- Two words are equal when their sixteen bits are. -/
theorem word_ext {w v : Word} (h : ∀ i < 16, w.getLsbD i = v.getLsbD i) : w = v :=
  BitVec.eq_of_getLsbD_eq h

end Sys2Proof

namespace Sys2Proof.Laws.FixedBits

/-- The encoder writes the fixed bits of the instruction's row of the opcode table (30_encoding.md R85). -/
def Statement (i : Instr) : Prop := i.form.fits (encode i) = true

theorem br (n z p : Bool) (off9 : BitVec 9) : Statement (.br n z p off9) := by
  simp only [Statement, Form.fits, Instr.form, Form.mask, Form.pattern, encode, place, beq_iff_eq]
  refine word_ext fun i hi => ?_
  interval_cases i <;> simp

theorem addReg (dr sr1 sr2 : Reg) : Statement (.addReg dr sr1 sr2) := by
  simp only [Statement, Form.fits, Instr.form, Form.mask, Form.pattern, encode, place, beq_iff_eq]
  refine word_ext fun i hi => ?_
  interval_cases i <;> simp

theorem addImm (dr sr1 : Reg) (imm5 : BitVec 5) : Statement (.addImm dr sr1 imm5) := by
  simp only [Statement, Form.fits, Instr.form, Form.mask, Form.pattern, encode, place, beq_iff_eq]
  refine word_ext fun i hi => ?_
  interval_cases i <;> simp

theorem ld (dr : Reg) (off9 : BitVec 9) : Statement (.ld dr off9) := by
  simp only [Statement, Form.fits, Instr.form, Form.mask, Form.pattern, encode, place, beq_iff_eq]
  refine word_ext fun i hi => ?_
  interval_cases i <;> simp

theorem st (sr : Reg) (off9 : BitVec 9) : Statement (.st sr off9) := by
  simp only [Statement, Form.fits, Instr.form, Form.mask, Form.pattern, encode, place, beq_iff_eq]
  refine word_ext fun i hi => ?_
  interval_cases i <;> simp

theorem jsr (off11 : BitVec 11) : Statement (.jsr off11) := by
  simp only [Statement, Form.fits, Instr.form, Form.mask, Form.pattern, encode, place, beq_iff_eq]
  refine word_ext fun i hi => ?_
  interval_cases i <;> simp

theorem jsrr (baseR : Reg) : Statement (.jsrr baseR) := by
  simp only [Statement, Form.fits, Instr.form, Form.mask, Form.pattern, encode, place, beq_iff_eq]
  refine word_ext fun i hi => ?_
  interval_cases i <;> simp

theorem andReg (dr sr1 sr2 : Reg) : Statement (.andReg dr sr1 sr2) := by
  simp only [Statement, Form.fits, Instr.form, Form.mask, Form.pattern, encode, place, beq_iff_eq]
  refine word_ext fun i hi => ?_
  interval_cases i <;> simp

theorem andImm (dr sr1 : Reg) (imm5 : BitVec 5) : Statement (.andImm dr sr1 imm5) := by
  simp only [Statement, Form.fits, Instr.form, Form.mask, Form.pattern, encode, place, beq_iff_eq]
  refine word_ext fun i hi => ?_
  interval_cases i <;> simp

theorem ldr (dr baseR : Reg) (off6 : BitVec 6) : Statement (.ldr dr baseR off6) := by
  simp only [Statement, Form.fits, Instr.form, Form.mask, Form.pattern, encode, place, beq_iff_eq]
  refine word_ext fun i hi => ?_
  interval_cases i <;> simp

theorem str (sr baseR : Reg) (off6 : BitVec 6) : Statement (.str sr baseR off6) := by
  simp only [Statement, Form.fits, Instr.form, Form.mask, Form.pattern, encode, place, beq_iff_eq]
  refine word_ext fun i hi => ?_
  interval_cases i <;> simp

theorem rti : Statement .rti := by rw [Statement]; decide

theorem not (dr sr : Reg) : Statement (.not dr sr) := by
  simp only [Statement, Form.fits, Instr.form, Form.mask, Form.pattern, encode, place, beq_iff_eq]
  refine word_ext fun i hi => ?_
  interval_cases i <;> simp

theorem ldi (dr : Reg) (off9 : BitVec 9) : Statement (.ldi dr off9) := by
  simp only [Statement, Form.fits, Instr.form, Form.mask, Form.pattern, encode, place, beq_iff_eq]
  refine word_ext fun i hi => ?_
  interval_cases i <;> simp

theorem sti (sr : Reg) (off9 : BitVec 9) : Statement (.sti sr off9) := by
  simp only [Statement, Form.fits, Instr.form, Form.mask, Form.pattern, encode, place, beq_iff_eq]
  refine word_ext fun i hi => ?_
  interval_cases i <;> simp

theorem jmp (baseR : Reg) : Statement (.jmp baseR) := by
  simp only [Statement, Form.fits, Instr.form, Form.mask, Form.pattern, encode, place, beq_iff_eq]
  refine word_ext fun i hi => ?_
  interval_cases i <;> simp

theorem res : Statement .res := by rw [Statement]; decide

theorem lea (dr : Reg) (off9 : BitVec 9) : Statement (.lea dr off9) := by
  simp only [Statement, Form.fits, Instr.form, Form.mask, Form.pattern, encode, place, beq_iff_eq]
  refine word_ext fun i hi => ?_
  interval_cases i <;> simp

theorem trap (vect8 : BitVec 8) : Statement (.trap vect8) := by
  simp only [Statement, Form.fits, Instr.form, Form.mask, Form.pattern, encode, place, beq_iff_eq]
  refine word_ext fun i hi => ?_
  interval_cases i <;> simp

end Sys2Proof.Laws.FixedBits
end

