-- ==== Sys2Proof/Laws/Services.lean ====
section
/-! SUPPORT. What the provider calls and the trap services can do, said once (43_system.md R155 to R159). -/

namespace Sys2Proof.Machine

/-- What no provider call touches: the core's registers, PC, COND, memory and run state, and SHUT. -/
structure SameCore (s t : State) : Prop where
  regs : t.regs = s.regs
  pc : t.pc = s.pc
  cond : t.cond = s.cond
  mem : t.mem = s.mem
  run : t.run = s.run
  shut : t.shut = s.shut

/-- What a service may do to the provider: take characters off the front of INQ, append bytes to OUTQ where `writes`
allows it, and use up choices off the front of `draws`. -/
structure ProviderUse (writes : Bool) (s t : State) : Prop where
  core : SameCore s t
  inq : ∃ taken, s.inq = taken ++ t.inq
  outq : ∃ written, t.outq = s.outq ++ written ∧ (writes = false → written = [])
  draws : ∃ used, s.draws = used ++ t.draws

theorem SameCore.rfl' (s : State) : SameCore s s := ⟨rfl, rfl, rfl, rfl, rfl, rfl⟩

theorem SameCore.trans' {s t u : State} (h : SameCore s t) (k : SameCore t u) : SameCore s u :=
  ⟨k.regs.trans h.regs, k.pc.trans h.pc, k.cond.trans h.cond, k.mem.trans h.mem, k.run.trans h.run,
    k.shut.trans h.shut⟩

theorem ProviderUse.rfl' (w : Bool) (s : State) : ProviderUse w s s := ⟨.rfl' s, ⟨[], rfl⟩, ⟨[], by simp⟩, ⟨[], rfl⟩⟩

theorem ProviderUse.trans' {w : Bool} {s t u : State} (h : ProviderUse w s t) (k : ProviderUse w t u) :
    ProviderUse w s u := by
  obtain ⟨x, hx⟩ := h.inq
  obtain ⟨y, hy⟩ := k.inq
  obtain ⟨p, hp, hp'⟩ := h.outq
  obtain ⟨q, hq, hq'⟩ := k.outq
  obtain ⟨c, hc⟩ := h.draws
  obtain ⟨d, hd⟩ := k.draws
  exact ⟨h.core.trans' k.core, ⟨x ++ y, by rw [hx, hy, List.append_assoc]⟩,
    ⟨p ++ q, by rw [hq, hp, List.append_assoc], fun e => by rw [hp' e, hq' e]; rfl⟩,
    ⟨c ++ d, by rw [hc, hd, List.append_assoc]⟩⟩

theorem memRead_use (w : Bool) (a : Word) (s : State) : ProviderUse w s (memRead a s).2 :=
  ⟨⟨by simp, by simp, by simp, by simp, by simp, by simp⟩, memRead_inq a s, ⟨[], by simp⟩, ⟨[], by simp⟩⟩

theorem dropDraw_use (w : Bool) (s : State) : ProviderUse w s (dropDraw s) :=
  ⟨⟨rfl, rfl, rfl, rfl, rfl, rfl⟩, ⟨[], rfl⟩, ⟨[], by simp⟩, ⟨s.draws.take 1, by cases h : s.draws <;> simp [h]⟩⟩

theorem dropInput_use (w : Bool) (s : State) : ProviderUse w s (dropInput s) :=
  ⟨⟨rfl, rfl, rfl, rfl, rfl, rfl⟩, ⟨s.inq.take 1, by cases h : s.inq <;> simp [h]⟩, ⟨[], by simp⟩, ⟨[], rfl⟩⟩

theorem pushOutput_use (b : Byte) (s : State) : ProviderUse true s (pushOutput b s) :=
  ⟨⟨rfl, rfl, rfl, rfl, rfl, rfl⟩, ⟨[], rfl⟩, ⟨[b], rfl, by simp⟩, ⟨[], rfl⟩⟩

/-- A successful `writeOutput` uses the provider; so does a failing one. -/
theorem wrote_use (b : Byte) (s : State) : ProviderUse true s (pushOutput b (dropDraw s)) :=
  (dropDraw_use true s).trans' (pushOutput_use b _)

/-- A successful `readInput` uses the provider. -/
theorem read_use (w : Bool) (s : State) : ProviderUse w s (dropInput (dropDraw s)) :=
  (dropDraw_use w s).trans' (dropInput_use w _)

theorem callFails_shut {s : State} (h : s.shut = true) : callFails s = true := by rw [callFails, h]; rfl

theorem callFails_chosen {s : State} {ds : List Bool} (h : s.draws = true :: ds) : callFails s = true := by
  rw [callFails, h]; exact Bool.or_true _

theorem callFails_not {s : State} (h : s.shut = false) (hd : s.draws.headD false = false) : callFails s = false := by
  rw [callFails, h, hd]; rfl

/-- `writeOutput`: it fails and writes nothing, or appends its byte. -/
theorem callWrite_cases (b : Byte) (s : State) :
    (callFails s = true ∧ callWrite b s = .failed (dropDraw s)) ∨
      (callFails s = false ∧ callWrite b s = .ok () (pushOutput b (dropDraw s))) := by
  by_cases h : callFails s = true
  · exact .inl ⟨h, by rw [callWrite, if_pos h]⟩
  · exact .inr ⟨by simpa using h, by rw [callWrite, if_neg h]⟩

/-- `readInput`: it fails and takes nothing, or takes the pending character. -/
theorem callRead_cases (s : State) :
    callRead s = .failed (dropDraw s) ∨
      (callFails s = false ∧ ∃ b rest, s.inq = b :: rest ∧ callRead s = .ok b (dropInput (dropDraw s))) := by
  rw [callRead]
  split
  · exact .inl rfl
  · rename_i h
    split
    · exact .inl rfl
    · rename_i b rest hq
      exact .inr ⟨by simpa using h, b, rest, hq, rfl⟩

/-- A prompt's bytes: all written, or up to the first failing call; an empty prompt makes no call. -/
theorem callWriteAll_cases (bs : List Byte) (s : State) :
    ∃ t, ProviderUse (!bs.isEmpty) s t ∧ (callWriteAll bs s = .failed t ∨ callWriteAll bs s = .ok () t) := by
  have key : ∀ (bs : List Byte) (s : State),
      ∃ t, ProviderUse true s t ∧ (callWriteAll bs s = .failed t ∨ callWriteAll bs s = .ok () t) := by
    intro bs
    induction bs with
    | nil => exact fun s => ⟨s, .rfl' _ s, .inr rfl⟩
    | cons b bs ih =>
      intro s
      rcases callWrite_cases b s with ⟨-, h⟩ | ⟨-, h⟩
      · exact ⟨_, dropDraw_use _ s, .inl (by rw [callWriteAll, h])⟩
      · obtain ⟨t, ht, he⟩ := ih (pushOutput b (dropDraw s))
        exact ⟨t, (wrote_use b s).trans' ht, by rw [callWriteAll, h]; exact he⟩
  cases bs with
  | nil => exact ⟨s, .rfl' _ s, .inr rfl⟩
  | cons b bs => exact key (b :: bs) s

/-- What every service ends in: it waits, or its scan is unended, or it used the provider and finished or failed.
`reads` says whether the service delivers a character (and may wait for one), `writes` whether it may write. -/
inductive ServiceEnds (reads writes : Bool) (s : State) : ServiceResult → Prop where
  | finished {c : Option Byte} {t : State} (char : c.isSome = reads) (use : ProviderUse writes s t) :
    ServiceEnds reads writes s (.finished c t)
  | failed {t : State} (use : ProviderUse writes s t) : ServiceEnds reads writes s (.failed t)
  | waiting (char : reads = true) (h : awaitsInput s = true) : ServiceEnds reads writes s .waiting
  | unended : ServiceEnds reads writes s .unended

theorem serviceGetc_ends (s : State) : ServiceEnds true false s (serviceGetc s) := by
  rw [serviceGetc]
  split
  · exact .waiting rfl ‹_›
  · rcases callRead_cases s with h | ⟨-, b, rest, -, h⟩ <;> rw [h]
    · exact .failed (dropDraw_use _ s)
    · exact .finished rfl (read_use _ s)

theorem serviceOut_ends (s : State) : ServiceEnds false true s (serviceOut s) := by
  rw [serviceOut]
  rcases callWrite_cases (lowByte (getReg .r0 s)) s with ⟨-, h⟩ | ⟨-, h⟩ <;> rw [h]
  · exact .failed (dropDraw_use _ s)
  · exact .finished rfl (wrote_use _ s)

/-- One read of the PUTS scan: it stops at a zero word, or fails with its byte, or goes on at the next address. -/
theorem putsScan_succ (fuel : Nat) (a : Word) (s : State) :
    ((memRead a s).1 = 0x0000#16 ∧ putsScan (fuel + 1) a s = .finished none (memRead a s).2) ∨
      ((memRead a s).1 ≠ 0x0000#16 ∧ callFails (memRead a s).2 = true ∧
        putsScan (fuel + 1) a s = .failed (dropDraw (memRead a s).2)) ∨
      ((memRead a s).1 ≠ 0x0000#16 ∧ callFails (memRead a s).2 = false ∧
        putsScan (fuel + 1) a s =
          putsScan fuel (a + 1#16) (pushOutput (lowByte (memRead a s).1) (dropDraw (memRead a s).2))) := by
  by_cases hw : (memRead a s).1 = 0x0000#16
  · exact .inl ⟨hw, by simp only [putsScan, if_pos hw]⟩
  · rcases callWrite_cases (lowByte (memRead a s).1) (memRead a s).2 with ⟨hf, h⟩ | ⟨hf, h⟩
    · exact .inr (.inl ⟨hw, hf, by simp only [putsScan, if_neg hw, h]⟩)
    · exact .inr (.inr ⟨hw, hf, by simp only [putsScan, if_neg hw, h]⟩)

theorem putsScan_ends (fuel : Nat) (a : Word) (s : State) : ServiceEnds false true s (putsScan fuel a s) := by
  induction fuel generalizing a s with
  | zero => exact .unended
  | succ fuel ih =>
    rcases putsScan_succ fuel a s with ⟨-, h⟩ | ⟨-, -, h⟩ | ⟨-, -, h⟩ <;> rw [h]
    · exact .finished rfl (memRead_use _ a s)
    · exact .failed ((memRead_use _ a s).trans' (dropDraw_use _ _))
    · have hu := (memRead_use true a s).trans' (wrote_use (lowByte (memRead a s).1) _)
      have he := ih (a + 1#16) (pushOutput (lowByte (memRead a s).1) (dropDraw (memRead a s).2))
      generalize putsScan fuel (a + 1#16) (pushOutput (lowByte (memRead a s).1) (dropDraw (memRead a s).2)) = r at he ⊢
      cases he with
      | finished char use => exact .finished char (hu.trans' use)
      | failed use => exact .failed (hu.trans' use)
      | waiting char _ => exact absurd char (by simp)
      | unended => exact .unended

/-- IN writes only where it has a prompt or echoes (R159). -/
theorem serviceIn_ends (c : Config) (s : State) :
    ServiceEnds true (!c.inPrompt.isEmpty || c.inEcho) s (serviceIn c s) := by
  have weaken : ∀ {u v : State}, ProviderUse (!c.inPrompt.isEmpty) u v →
      ProviderUse (!c.inPrompt.isEmpty || c.inEcho) u v := fun h =>
    ⟨h.core, h.inq, h.outq.imp fun w hw => ⟨hw.1, fun e => hw.2 (by revert e; cases c.inPrompt.isEmpty <;> simp)⟩,
      h.draws⟩
  rw [serviceIn]
  split
  · exact .waiting rfl ‹_›
  · obtain ⟨t, ht, h⟩ := callWriteAll_cases c.inPrompt s
    rcases h with h | h <;> rw [h]
    · exact .failed (weaken ht)
    · simp only
      rcases callRead_cases t with h | ⟨-, b, rest, -, h⟩ <;> rw [h]
      · exact .failed ((weaken ht).trans' (dropDraw_use _ _))
      · simp only
        have hu := (weaken ht).trans' (read_use _ t)
        split
        · rename_i he
          rw [he, Bool.or_true] at hu ⊢
          rcases callWrite_cases b (dropInput (dropDraw t)) with ⟨-, h⟩ | ⟨-, h⟩ <;> rw [h]
          · exact .failed (hu.trans' (dropDraw_use _ _))
          · exact .finished rfl (hu.trans' (wrote_use _ _))
        · exact .finished rfl hu

/-! ### A scan through the memory interface (43_system.md R158) -/

theorem readsFrom_append {a : Word} {s u v : State} {cs ds : List Word} (h : readsFrom a s cs u)
    (k : readsFrom (a + BitVec.ofNat 16 cs.length) u ds v) : readsFrom a s (cs ++ ds) v := by
  induction cs generalizing a s with
  | nil => cases h; simpa using k
  | cons c cs ih =>
    refine ⟨h.1, ih h.2 ?_⟩
    have e : a + 1#16 + BitVec.ofNat 16 cs.length = a + BitVec.ofNat 16 (c :: cs).length := by
      rw [BitVec.add_assoc, List.length_cons, Nat.add_comm cs.length 1, BitVec.ofNat_add]
    rw [e]
    exact k

/-- A scan changes nothing but INQ. -/
theorem readsFrom_state {a : Word} {s u : State} {cs : List Word} (h : readsFrom a s cs u) :
    u = { s with inq := u.inq } := by
  induction cs generalizing a s with
  | nil => cases h; rfl
  | cons c cs ih =>
    have e := ih h.2
    rcases memRead_state a s with k | ⟨_, _, k⟩ <;> rw [k] at e <;> exact e

theorem readsFrom_wordsAt {a : Word} {s : State} {cs : List Word} (h : wordsAt s.mem a cs) : readsFrom a s cs s := by
  induction cs generalizing a with
  | nil => rfl
  | cons c cs ih => rw [readsFrom, memRead_ordinary h.1]; exact ⟨h.2.1, ih h.2.2.2⟩

theorem readsFrom_stringAt {a : Word} {s : State} {cs : List Word} (h : stringAt s.mem a cs) :
    readsFrom a s (cs ++ [0x0000#16]) s := by
  induction cs generalizing a with
  | nil =>
    show (memRead a s).1 = _ ∧ s = (memRead a s).2
    rw [memRead_ordinary h.1]; exact ⟨h.2, rfl⟩
  | cons c cs ih =>
    show (memRead a s).1 = c ∧ readsFrom (a + 1#16) (memRead a s).2 (cs ++ [0x0000#16]) s
    rw [memRead_ordinary h.1]; exact ⟨h.2.1, ih h.2.2.2⟩

/-- One address nearer to KBDR. -/
theorem to_kbdr_succ (a : Word) (h : a ≠ kbdr) : (kbdr - (a + 1#16)).toNat + 1 = (kbdr - a).toNat := by
  have e : kbdr - a = (kbdr - (a + 1#16)) + 1#16 := by
    rw [← BitVec.sub_sub, BitVec.sub_add_cancel]
  have hne : (kbdr - (a + 1#16)) + 1#16 ≠ 0#16 := by
    rw [← e]; intro e0; exact h ((BitVec.sub_eq_iff_eq_add.mp e0).trans (BitVec.zero_add a)).symm
  rw [e]
  generalize kbdr - (a + 1#16) = x at hne
  have hx := x.isLt
  have : x.toNat + 1 ≠ 2 ^ 16 := fun e1 => hne (BitVec.eq_of_toNat_eq (by simp [BitVec.toNat_add, e1]))
  rw [BitVec.toNat_add]
  exact (Nat.mod_eq_of_lt (by simp; omega)).symm
theorem lap_bound (lap n m q : Nat) (h : n < lap + lap * m) : n + 1 ≤ q + lap * (m+1) := by
  rw [Nat.mul_add]; omega
/-- Successive reads that return no zero word reach KBDR only with a character pending, and so end within one lap of the
address space for each pending character (log entry 7). -/
theorem readsFrom_le {a : Word} {s u : State} {cs : List Word} (h : readsFrom a s cs u) (hz : ∀ x ∈ cs, x ≠ 0#16) :
    cs.length ≤ (kbdr - a).toNat + 2 ^ 16 * s.inq.length := by
  induction cs generalizing a s with
  | nil => exact Nat.zero_le _
  | cons c cs ih =>
    have h2 := ih h.2 (fun x hx => hz x (List.mem_cons_of_mem _ hx))
    have hc := hz c (List.mem_cons_self)
    rw [List.length_cons]
    by_cases ha : a = kbdr
    · rw [ha] at h h2
      have hh : hasInput s = true := by
        cases e : hasInput s with
        | true => rfl
        | false =>
          have := h.1
          rw [memRead_kbdr, e] at this
          exact absurd this.symm hc
      rw [memRead_kbdr, if_pos hh] at h2
      obtain ⟨x, xs, hq⟩ : ∃ x xs, s.inq = x :: xs := by
        cases e : s.inq with
        | nil => simp [hasInput, e] at hh
        | cons x xs => exact ⟨x, xs, rfl⟩
      rw [hq, List.length_cons]
      have h3 : (dropInput s).inq.length = xs.length := by simp [hq]
      simp only [h3] at h2
      exact lap_bound _ _ _ _ (Nat.lt_of_le_of_lt h2 (Nat.add_lt_add_right (BitVec.isLt _) _))
    · have hs : (memRead a s).2 = s := (memRead_state a s).resolve_right fun e => ha e.1
      rw [hs] at h2
      rw [← to_kbdr_succ a ha]
      generalize 2 ^ 16 * s.inq.length = z at *
      omega

/-- `putsFuel` is enough for every scan that returns no zero word, and one read more. -/
theorem readsFrom_fuel {a : Word} {s u : State} {cs : List Word} (h : readsFrom a s cs u)
    (hz : ∀ x ∈ cs, x ≠ 0x0000#16) : cs.length < putsFuel s := by
  refine Nat.lt_of_le_of_lt (readsFrom_le h hz) ?_
  have hd := (kbdr - a).isLt
  rw [putsFuel, memWords, Nat.mul_add, Nat.add_comm]
  exact Nat.add_lt_add_left hd _

/-! ### TRAP, vector by vector (R153) -/

theorem zext8_inj {v k : BitVec 8} : zext8 v = zext8 k ↔ v = k := by
  refine ⟨fun h => ?_, fun h => by rw [h]⟩
  have e := congrArg BitVec.toNat h
  have h1 := v.isLt
  have h2 := k.isLt
  simp only [zext8, BitVec.toNat_setWidth] at e
  exact BitVec.eq_of_toNat_eq (by omega)

theorem trapWith_getc (c : Config) (s : State) : trapWith c 0x20#8 s = endService s (serviceGetc s) := by
  rw [trapWith, if_pos (by decide), memRead_zext8]

theorem trapWith_out (c : Config) (s : State) : trapWith c 0x21#8 s = endService s (serviceOut s) := by
  rw [trapWith, if_neg (by decide), if_pos (by decide), memRead_zext8]

theorem trapWith_puts (c : Config) (s : State) : trapWith c 0x22#8 s = endService s (servicePuts s) := by
  rw [trapWith, if_neg (by decide), if_neg (by decide), if_pos (by decide), memRead_zext8]

theorem trapWith_in (c : Config) (s : State) : trapWith c 0x23#8 s = endService s (serviceIn c s) := by
  rw [trapWith, if_neg (by decide), if_neg (by decide), if_neg (by decide), if_pos (by decide), memRead_zext8]

theorem trapWith_halt (c : Config) (s : State) :
    trapWith c 0x25#8 s = .next (halt (trapTransfer (zext8 0x25#8) s)) := by
  rw [trapWith, if_neg (by decide), if_neg (by decide), if_neg (by decide), if_neg (by decide), if_pos (by decide)]

theorem trapWith_other (c : Config) {v : BitVec 8} (h0 : v ≠ 0x20#8) (h1 : v ≠ 0x21#8) (h2 : v ≠ 0x22#8)
    (h3 : v ≠ 0x23#8) (h5 : v ≠ 0x25#8) (s : State) : trapWith c v s = .next (trapTransfer (zext8 v) s) := by
  have ne : ∀ {k : BitVec 8}, v ≠ k → ¬ zext8 v = zext8 k := fun h e => h (zext8_inj.mp e)
  rw [trapWith, if_neg (show ¬ zext8 v = vectGetc from ne h0), if_neg (show ¬ zext8 v = vectOut from ne h1),
    if_neg (show ¬ zext8 v = vectPuts from ne h2), if_neg (show ¬ zext8 v = vectIn from ne h3),
    if_neg (show ¬ zext8 v = vectHalt from ne h5)]

/-- Whether a service may append to OUTQ: OUT and PUTS, and IN where it prompts or echoes. -/
def mayWrite (c : Config) (v : BitVec 8) : Bool :=
  v == 0x21#8 || v == 0x22#8 || (v == 0x23#8 && (!c.inPrompt.isEmpty || c.inEcho))

theorem mayWrite_standard {v : BitVec 8} (h : mayWrite .standard v = true) : v = 0x21#8 ∨ v = 0x22#8 := by
  simpa [mayWrite, Config.standard] using h

/-- All that TRAP can do (R152 to R160), under any parameters: for a service vector, what `endService` makes of the
service's end; for any other vector the transfer, followed by halt for the HALT vector. -/
theorem trapWith_cases (c : Config) (v : BitVec 8) (s : State) :
    (∃ r, (v = 0x20#8 ∨ v = 0x23#8) ∧ ServiceEnds true (mayWrite c v) s r ∧ trapWith c v s = endService s r) ∨
      (∃ r, (v = 0x21#8 ∨ v = 0x22#8) ∧ ServiceEnds false (mayWrite c v) s r ∧ trapWith c v s = endService s r) ∨
      (v = 0x25#8 ∧ trapWith c v s = .next (halt (trapTransfer (zext8 v) s))) ∨
      (v ∉ [0x20#8, 0x21#8, 0x22#8, 0x23#8, 0x25#8] ∧ trapWith c v s = .next (trapTransfer (zext8 v) s)) := by
  by_cases h0 : v = 0x20#8
  · subst h0; exact .inl ⟨_, .inl rfl, serviceGetc_ends s, trapWith_getc _ s⟩
  by_cases h3 : v = 0x23#8
  · subst h3; exact .inl ⟨_, .inr rfl, serviceIn_ends c s, trapWith_in _ s⟩
  by_cases h1 : v = 0x21#8
  · subst h1; exact .inr (.inl ⟨_, .inl rfl, serviceOut_ends s, trapWith_out _ s⟩)
  by_cases h2 : v = 0x22#8
  · subst h2; exact .inr (.inl ⟨_, .inr rfl, putsScan_ends _ _ s, trapWith_puts _ s⟩)
  by_cases h5 : v = 0x25#8
  · subst h5; exact .inr (.inr (.inl ⟨rfl, trapWith_halt _ s⟩))
  exact .inr (.inr (.inr ⟨by simp [h0, h1, h2, h3, h5], trapWith_other _ h0 h1 h2 h3 h5 s⟩))

/-- Every next state that TRAP can lead to: a service finished, with R7 the return address and R0 the character of GETC
and IN; a service failed; GETC or IN waits; HALT; or the general transfer. -/
theorem trapWith_next {c : Config} {v : BitVec 8} {s t : State} (h : trapWith c v s = .next t) :
    (∃ u b, (v = 0x20#8 ∨ v = 0x23#8) ∧ ProviderUse (mayWrite c v) s u ∧ t = setReg .r0 (zext8 b) (link u)) ∨
      (∃ u, (v = 0x21#8 ∨ v = 0x22#8) ∧ ProviderUse (mayWrite c v) s u ∧ t = link u) ∨
      (∃ u, v ∈ [0x20#8, 0x21#8, 0x22#8, 0x23#8] ∧ ProviderUse (mayWrite c v) s u ∧
        t = takeFault .ioProviderError u) ∨
      ((v = 0x20#8 ∨ v = 0x23#8) ∧ awaitsInput s = true ∧ t = suspend s) ∨
      (v = 0x25#8 ∧ t = halt (trapTransfer (zext8 v) s)) ∨
      (v ∉ [0x20#8, 0x21#8, 0x22#8, 0x23#8, 0x25#8] ∧ t = trapTransfer (zext8 v) s) := by
  rcases trapWith_cases c v s with ⟨r, hv, he, hx⟩ | ⟨r, hv, he, hx⟩ | ⟨hv, hx⟩ | ⟨hv, hx⟩ <;> rw [hx] at h
  · cases he with
    | @finished c u char use =>
      cases c with
      | none => simp at char
      | some b => cases h; exact .inl ⟨u, b, hv, use, rfl⟩
    | @failed u use => cases h; exact .inr (.inr (.inl ⟨u, by rcases hv with rfl | rfl <;> decide, use, rfl⟩))
    | waiting _ hw => cases h; exact .inr (.inr (.inr (.inl ⟨hv, hw, rfl⟩)))
    | unended => cases h
  · cases he with
    | @finished c u char use =>
      cases c with
      | none => cases h; exact .inr (.inl ⟨u, hv, use, rfl⟩)
      | some b => simp at char
    | @failed u use => cases h; exact .inr (.inr (.inl ⟨u, by rcases hv with rfl | rfl <;> decide, use, rfl⟩))
    | waiting char _ => simp at char
    | unended => cases h
  · cases h; exact .inr (.inr (.inr (.inr (.inl ⟨hv, rfl⟩))))
  · cases h; exact .inr (.inr (.inr (.inr (.inr ⟨hv, rfl⟩))))

/-! ### The transfer of TRAP (R152) -/

theorem trapTransfer_eq (v : BitVec 8) (s : State) :
    trapTransfer (zext8 v) s = setPc (memGet s.mem (zext8 v).toNat) (link s) := by
  rw [trapTransfer, memRead_zext8]; rfl

end Sys2Proof.Machine
end

