-- ==== Sys2Proof/Tests/Slice0.lean ====
section
/-! SUPPORT. The model's own tests. Expected values are the spec's: the words of 95_test_vectors.md W1, the vectors V-X
to V-R of its part 2, the mask and match of spec/opcode_table.json. The last part shows, for every obligation that has
hypotheses, concrete states and operands that meet them. -/

namespace Sys2Proof.Tests
open Sys2Proof.Machine

/-- The next state of an outcome, where it is one. -/
def nextOf : Host.Outcome State Fault Refusal → Option State
  | .next t => some t
  | .fault _ => none
  | .refused _ => none

/-- One step from a state with the word `w` placed at PC. -/
def stepped (w : Nat) (s : State) : Option State := nextOf (step (s.withFetchWord 16 w))

/-- An outcome with a next state is that next state. -/
theorem answers_next {o : Host.Outcome State Fault Refusal} (h : (nextOf o).isSome = true) : ∃ t, o = .next t := by
  cases o with
  | next t => exact ⟨t, rfl⟩
  | fault f => cases h
  | refused r => cases h

/-- Reset with PC at an address. -/
def atPc (a : Word) : State := hostSetPc a State.reset

/-- Reset with some characters pending. -/
def typed (cs : List Byte) : State := { State.reset with inq := cs }

/-- The parameters of the last row of V-T: the prompt 3E and an echo. -/
def prompting : Config := { inPrompt := [0x3E#8], inEcho := true }

/-- Reset with the provider shut down. -/
def shutDown : State := providerShutDown State.reset

/-- Reset, but with N set. -/
def negative : State := hostSetFlags .n State.reset

/-- Reset, but with P set. -/
def positive : State := hostSetFlags .p State.reset

/-- A register set after reset. -/
def holding (r : Reg) (v : Word) : State := hostSetReg r v State.reset

/-- A memory word set after reset. -/
def stored (a v : Word) : State := hostWrite a v State.reset

/-- The string `0048 0069 0000` at 0x3100, its address in R0 (V-T, PUTS). -/
def hiString : State := hostSetReg .r0 0x3100#16 (hostWrite 0x3101#16 0x0069#16 (stored 0x3100#16 0x0048#16))

/-! ### Well-formedness: each check refuses an ill-formed word -/

/-- `9280` is a NOT, but its unnamed bits are not the conventional ones (R84). -/
theorem test_spells_refuses_not_without_ones :
    Form.fits .not 0x9280#16 = true ∧ Form.spells .not 0x9280#16 = false ∧ Form.spells .not 0x92BF#16 = true := by decide

/-- `1058` is an ADD, but its unnamed bits are set (R84); `FF25`, `CFFF`, `46BF` and `8FFF` likewise. -/
theorem test_spells_refuses_set_unnamed_bits :
    Form.spells .addReg 0x1058#16 = false ∧ Form.spells .addReg 0x1040#16 = true ∧
    Form.spells .trap 0xFF25#16 = false ∧ Form.spells .jmp 0xCFFF#16 = false ∧ Form.spells .jsrr 0x46BF#16 = false ∧
    Form.spells .rti 0x8FFF#16 = false ∧ Form.spells .res 0xDABC#16 = false ∧ Form.spells .andReg 0x5008#16 = false := by
  decide

/-- A word with another row's fixed bits does not fit: the opcode, bit 5 of ADD and AND, bit 11 of JSR (R85). -/
theorem test_fits_refuses_other_rows :
    Form.fits .br 0x1064#16 = false ∧ Form.fits .addReg 0x1064#16 = false ∧ Form.fits .addImm 0x1042#16 = false ∧
    Form.fits .andReg 0x5020#16 = false ∧ Form.fits .andImm 0x54C4#16 = false ∧ Form.fits .jsr 0x4080#16 = false ∧
    Form.fits .jsrr 0x4810#16 = false ∧ Form.fits .ld 0x3000#16 = false ∧ Form.fits .st 0x2405#16 = false ∧
    Form.fits .ldr 0x7283#16 = false ∧ Form.fits .str 0x62BF#16 = false ∧ Form.fits .rti 0xD000#16 = false ∧
    Form.fits .not 0x8000#16 = false ∧ Form.fits .ldi 0xB810#16 = false ∧ Form.fits .sti 0xA810#16 = false ∧
    Form.fits .jmp 0xD000#16 = false ∧ Form.fits .res 0xC0C0#16 = false ∧ Form.fits .lea 0xF025#16 = false ∧
    Form.fits .trap 0xE002#16 = false := by decide

/-! ### Decoding: one written-out word per constructor (95_test_vectors.md W1), and the encoder gives it back -/

theorem test_decode_br : decode 0b0000_1_0_1_111110000#16 = .br true false true 0x1F0#9 := by decide
theorem test_decode_addReg : decode 0b0001_011_100_0_00_101#16 = .addReg .r3 .r4 .r5 := by decide
theorem test_decode_addImm : decode 0b0001_011_100_1_11011#16 = .addImm .r3 .r4 0x1B#5 := by decide
theorem test_decode_ld : decode 0b0010_110_010101010#16 = .ld .r6 0x0AA#9 := by decide
theorem test_decode_st : decode 0b0011_110_101010101#16 = .st .r6 0x155#9 := by decide
theorem test_decode_jsr : decode 0b0100_1_10101010101#16 = .jsr 0x555#11 := by decide
theorem test_decode_jsrr : decode 0b0100_0_00_101_000000#16 = .jsrr .r5 := by decide
theorem test_decode_andReg : decode 0b0101_001_010_0_00_011#16 = .andReg .r1 .r2 .r3 := by decide
theorem test_decode_andImm : decode 0b0101_001_010_1_01010#16 = .andImm .r1 .r2 0x0A#5 := by decide
theorem test_decode_ldr : decode 0b0110_111_110_101010#16 = .ldr .r7 .r6 0x2A#6 := by decide
theorem test_decode_str : decode 0b0111_000_001_010101#16 = .str .r0 .r1 0x15#6 := by decide
theorem test_decode_rti : decode 0b1000_000000000000#16 = .rti := by decide
theorem test_decode_not : decode 0b1001_100_101_111111#16 = .not .r4 .r5 := by decide
theorem test_decode_ldi : decode 0b1010_010_111111111#16 = .ldi .r2 0x1FF#9 := by decide
theorem test_decode_sti : decode 0b1011_010_000000000#16 = .sti .r2 0x000#9 := by decide
theorem test_decode_jmp : decode 0b1100_000_110_000000#16 = .jmp .r6 := by decide
theorem test_decode_res : decode 0b1101_000000000000#16 = .res := by decide
theorem test_decode_lea : decode 0b1110_111_100000000#16 = .lea .r7 0x100#9 := by decide
theorem test_decode_trap : decode 0b1111_0000_00100101#16 = .trap 0x25#8 := by decide

/-- The words of W1 again, from their fields. -/
theorem test_encode_words :
    [Instr.br true false true 0x1F0#9, .addReg .r3 .r4 .r5, .addImm .r3 .r4 0x1B#5, .ld .r6 0x0AA#9, .st .r6 0x155#9,
      .jsr 0x555#11, .jsrr .r5, .andReg .r1 .r2 .r3, .andImm .r1 .r2 0x0A#5, .ldr .r7 .r6 0x2A#6,
      .str .r0 .r1 0x15#6, .rti, .not .r4 .r5, .ldi .r2 0x1FF#9, .sti .r2 0x000#9, .jmp .r6, .res, .lea .r7 0x100#9,
      .trap 0x25#8].map encode =
    [0x0BF0#16, 0x1705#16, 0x173B#16, 0x2CAA#16, 0x3D55#16, 0x4D55#16, 0x4140#16, 0x5283#16, 0x52AA#16, 0x6FAA#16,
      0x7055#16, 0x8000#16, 0x997F#16, 0xA5FF#16, 0xB400#16, 0xC180#16, 0xD000#16, 0xEF00#16, 0xF025#16] := by decide

/-! ### Extensions and flags (V-X), reset (R39), the keyboard (W8, V-K) -/

theorem test_sign_extension :
    sext5 0x10#5 = 0xFFF0#16 ∧ sext5 0x0F#5 = 0x000F#16 ∧ sext6 0x20#6 = 0xFFE0#16 ∧ sext6 0x1F#6 = 0x001F#16 ∧
    sext9 0x100#9 = 0xFF00#16 ∧ sext9 0x0FF#9 = 0x00FF#16 ∧ sext11 0x400#11 = 0xFC00#16 ∧
    sext11 0x3FF#11 = 0x03FF#16 ∧ zext8 0xFF#8 = 0x00FF#16 := by decide

theorem test_setcc : [0x0000#16, 0x0001#16, 0x7FFF#16, 0x8000#16, 0xFFFF#16].map flagOf = [.z, .p, .p, .n, .n] := by
  decide

/-- V-R, its first step: a zero word is a BR never taken. -/
theorem test_reset_runs_a_nop :
    (nextOf (step State.reset)).map (fun t => (t.pc, t.cond, t.run)) = some (0x3001#16, 0b010#3, .running) := by decide

/-- W8. -/
theorem test_keyboard_reads :
    (memRead 0xFE00#16 (typed [0x61#8])).1 = 0x8000#16 ∧ (memRead 0xFE02#16 (typed [0x61#8])).1 = 0x0061#16 ∧
    (memRead 0xFE02#16 (typed [0x61#8])).2.inq = [] ∧ (memRead 0xFE02#16 State.reset).1 = 0x0000#16 ∧
    (memRead 0xFE00#16 State.reset).1 = 0x0000#16 := by decide

/-- V-K, third row: the backing word is stored, and a read still follows the provider. -/
theorem test_keyboard_write :
    memGet (memWrite 0xFE02#16 0x5678#16 State.reset).mem 0xFE02 = 0x5678#16 ∧
    (memRead 0xFE02#16 (memWrite 0xFE02#16 0x5678#16 State.reset)).1 = 0x0000#16 := by decide

/-- V-K, the fetches from the keyboard addresses. -/
theorem test_keyboard_fetch :
    (nextOf (step { atPc 0xFE02#16 with inq := [0x41#8] })).map (fun t => (t.pc, t.inq, t.run)) =
      some (0xFE03#16, [], .running) ∧
    (nextOf (step { atPc 0xFE00#16 with inq := [0x41#8] })).map (fun t => (t.pc, t.inq, t.run)) =
      some (0xFE01#16, [0x41#8], .faulted .illegalOpcode) := by decide

/-! ### One step per instruction (V-C, V-O, V-M, V-T) -/

theorem test_br_on_its_flag : (stepped 0x0402 State.reset).map (·.pc) = some 0x3003#16 ∧
    (stepped 0x0402 positive).map (·.pc) = some 0x3001#16 := by decide
theorem test_br_backward : (stepped 0x0F00 State.reset).map (·.pc) = some 0x2F01#16 ∧
    (stepped 0x0201 { positive with pc := 0xFFFF#16 }).map (·.pc) = some 0x0001#16 := by decide

theorem test_jsr : (stepped 0x4C00 State.reset).map (fun t => (getReg .r7 t, t.pc)) =
    some (0x3001#16, 0x2C01#16) := by decide
theorem test_jsrr : (stepped 0x46BF (holding .r2 0x5000#16)).map (fun t => (getReg .r7 t, t.pc)) =
    some (0x3001#16, 0x5000#16) := by decide
theorem test_jsrr_of_r7 : (stepped 0x41C0 (holding .r7 0x1234#16)).map (fun t => (getReg .r7 t, t.pc)) =
    some (0x3001#16, 0x3001#16) := by decide
theorem test_jmp : (stepped 0xC0C0 (holding .r3 0x4321#16)).map (·.pc) = some 0x4321#16 ∧
    (stepped 0xCFFF (holding .r7 0x0042#16)).map (·.pc) = some 0x0042#16 := by decide

theorem test_addReg_wraps : (stepped 0x1042 (hostSetReg .r2 0xEDCC#16 (holding .r1 0x1234#16))).map
    (fun t => (getReg .r0 t, t.cond, t.pc)) = some (0x0000#16, 0b010#3, 0x3001#16) := by decide
theorem test_addReg_doubles : (stepped 0x1241 (holding .r1 0x4000#16)).map
    (fun t => (getReg .r1 t, t.cond)) = some (0x8000#16, 0b100#3) := by decide
/-- The source's own end-to-end ADD, corrected (W6, first row). -/
theorem test_addImm : (stepped 0x1064 (holding .r1 0x0001#16)).map (fun t => (getReg .r0 t, t.cond, t.pc)) =
    some (0x0005#16, 0b001#3, 0x3001#16) := by decide
theorem test_addImm_negative : (stepped 0x1070 (holding .r1 0x0010#16)).map (fun t => (getReg .r0 t, t.cond)) =
    some (0x0000#16, 0b010#3) := by decide
theorem test_andReg : (stepped 0x54C4 (hostSetReg .r4 0x8FF1#16 (holding .r3 0xF0F0#16))).map
    (fun t => (getReg .r2 t, t.cond)) = some (0x80F0#16, 0b100#3) := by decide
theorem test_andImm : (stepped 0x5078 (holding .r1 0xABCD#16)).map (fun t => (getReg .r0 t, t.cond)) =
    some (0xABC8#16, 0b100#3) := by decide
theorem test_andImm_clears : (stepped 0x5020 (hostSetReg .r0 0xBEEF#16 negative)).map
    (fun t => (getReg .r0 t, t.cond)) = some (0x0000#16, 0b010#3) := by decide
theorem test_not : (stepped 0x92BF (holding .r2 0x7FFF#16)).map (fun t => (getReg .r1 t, t.cond)) =
    some (0x8000#16, 0b100#3) := by decide
theorem test_not_ignores_low_bits : (stepped 0x9280 (holding .r2 0x00FF#16)).map
    (fun t => (getReg .r1 t, t.cond)) = some (0xFF00#16, 0b100#3) := by decide

theorem test_ld : (stepped 0x2405 (stored 0x3006#16 0xABCD#16)).map (fun t => (getReg .r2 t, t.cond)) =
    some (0xABCD#16, 0b100#3) := by decide
theorem test_ld_own_word : (stepped 0x21FF State.reset).map (fun t => (getReg .r0 t, t.cond)) =
    some (0x21FF#16, 0b001#3) := by decide
theorem test_st : (stepped 0x37FD (hostSetReg .r3 0x0042#16 (atPc 0x3005#16))).map
    (fun t => (memGet t.mem 0x3003, t.cond, t.pc)) = some (0x0042#16, 0b010#3, 0x3006#16) := by decide
theorem test_ldr_wraps : (stepped 0x62BF (stored 0xFFFF#16 0x9999#16)).map (fun t => (getReg .r1 t, t.cond)) =
    some (0x9999#16, 0b100#3) := by decide
theorem test_ldr_consumes : (stepped 0x6240 { holding .r1 0xFE02#16 with inq := [0xE9#8] }).map
    (fun t => (getReg .r1 t, t.cond, t.inq)) = some (0x00E9#16, 0b001#3, []) := by decide
theorem test_str_wraps : (stepped 0x7281 (hostSetReg .r2 0xFFFF#16 (holding .r1 0xAAAA#16))).map
    (fun t => (memGet t.mem 0x0000, t.cond)) = some (0xAAAA#16, 0b010#3) := by decide
theorem test_ldi : (stepped 0xA810 (hostWrite 0x4000#16 0x0007#16 (stored 0x3011#16 0x4000#16))).map
    (fun t => (getReg .r4 t, t.cond)) = some (0x0007#16, 0b001#3) := by decide
theorem test_ldi_keyboard : (stepped 0xA000 { stored 0x3001#16 0xFE02#16 with inq := [0x61#8, 0x62#8] }).map
    (fun t => (getReg .r0 t, t.cond, t.inq)) = some (0x0061#16, 0b001#3, [0x62#8]) := by decide
theorem test_sti : (stepped 0xB810 (hostSetReg .r4 0x0009#16 (stored 0x3011#16 0x4000#16))).map
    (fun t => (memGet t.mem 0x4000, t.cond)) = some (0x0009#16, 0b010#3) := by decide
theorem test_sti_over_its_pointer : (stepped 0xB600 (hostSetReg .r3 0x7777#16 (stored 0x3001#16 0x3001#16))).map
    (fun t => memGet t.mem 0x3001) = some 0x7777#16 := by decide
theorem test_lea : (stepped 0xEBFF (atPc 0x9000#16)).map (fun t => (getReg .r5 t, t.cond)) =
    some (0x9000#16, 0b100#3) := by decide
theorem test_lea_wraps : (stepped 0xE000 { positive with pc := 0xFFFF#16 }).map
    (fun t => (getReg .r0 t, t.cond, t.pc)) = some (0x0000#16, 0b010#3, 0x0000#16) := by decide

theorem test_rti : (stepped 0x8FFF (hostSetReg .r1 0x0005#16 negative)).map
    (fun t => (t.run, t.pc, getReg .r1 t, t.cond)) =
      some (.faulted .illegalOpcode, 0x3001#16, 0x0005#16, 0b100#3) := by decide
theorem test_res : (stepped 0xDABC State.reset).map (fun t => (t.run, t.pc)) =
    some (.faulted .illegalOpcode, 0x3001#16) := by decide
theorem test_trap_table : (stepped 0xF0FF (stored 0x00FF#16 0xABCD#16)).map
    (fun t => (getReg .r7 t, t.pc, t.run)) = some (0x3001#16, 0xABCD#16, .running) := by decide
theorem test_trap_halt : (stepped 0xFF25 (stored 0x0025#16 0x0520#16)).map
    (fun t => (getReg .r7 t, t.pc, t.run)) = some (0x3001#16, 0x0520#16, .halted) := by decide
theorem test_trap_getc : (stepped 0xF020 { negative with inq := [0x00#8], regs.r0 := 0x1234#16 }).map
    (fun t => (getReg .r0 t, getReg .r7 t, t.pc, t.cond, t.inq)) =
      some (0x0000#16, 0x3001#16, 0x3001#16, 0b100#3, []) := by decide
theorem test_trap_getc_waits_or_faults : stepped 0xF020 State.reset = some (State.reset.withFetchWord 16 0xF020) ∧
    (stepped 0xF020 (hostSetReg .r7 0x1111#16 shutDown)).map (fun t => (t.run, t.pc, getReg .r7 t)) =
      some (.faulted .ioProviderError, 0x3001#16, 0x1111#16) := by decide
theorem test_trap_out : (stepped 0xF021 (holding .r0 0x0148#16)).map
    (fun t => (t.outq, getReg .r7 t, t.pc, getReg .r0 t)) =
      some ([0x48#8], 0x3001#16, 0x3001#16, 0x0148#16) := by decide
theorem test_trap_puts : (stepped 0xF022 hiString).map (fun t => (t.outq, getReg .r7 t, t.pc)) =
    some ([0x48#8, 0x69#8], 0x3001#16, 0x3001#16) := by decide
theorem test_trap_puts_wraps : (stepped 0xF022 (hostSetReg .r0 0xFFFF#16 (hostWrite 0x0000#16 0x0059#16
    (stored 0xFFFF#16 0x0058#16)))).map (·.outq) = some [0x58#8, 0x59#8] := by decide
theorem test_trap_in : (stepped 0xF023 (typed [0x7A#8])).map (fun t => (getReg .r0 t, getReg .r7 t, t.pc, t.outq)) =
    some (0x007A#16, 0x3001#16, 0x3001#16, []) := by decide
theorem test_trap_in_with_prompt :
    (nextOf (stepWith prompting ((typed [0x7A#8]).withFetchWord 16 0xF023))).map
      (fun t => (getReg .r0 t, t.outq)) = some (0x007A#16, [0x3E#8, 0x7A#8]) := by decide

/-- R158: a scan reads the status register at 0xFE00 as 0x8000, whose low byte is 00, and the character at 0xFE02. -/
theorem test_trap_puts_over_the_keyboard :
    (stepped 0xF022 (hostSetReg .r0 0xFE00#16 { stored 0xFE01#16 0x0042#16 with inq := [0x61#8, 0x62#8] })).map
      (fun t => (t.outq, t.inq)) = some ([0x00#8, 0x42#8, 0x61#8], [0x62#8]) := by decide

/-- U9: with the base read first, JSRR R7 jumps to the old R7. -/
theorem test_jsrr_base_first :
    (nextOf (stepWith { jsrrLinkFirst := false } ((holding .r7 0x1234#16).withFetchWord 16 0x41C0))).map
      (fun t => (getReg .r7 t, t.pc)) = some (0x3001#16, 0x1234#16) := by decide

/-- D2: with the numbers of ADD and AND exchanged, the word of `AND R2,R3,R4` adds. -/
theorem test_other_opcode_numbers :
    decodeWith { opcodeRow := fun n => if n = 1#4 then 5#4 else if n = 5#4 then 1#4 else n } 0x54C4#16 =
      .addReg .r2 .r3 .r4 := by decide

/-! ### The host (R204, R209) -/

/-- A one-word image for 0x3000, big-endian. -/
theorem test_image : (loadImages .standard [[0x30#8, 0x00#8, 0xF0#8, 0x25#8]] State.reset).map (·.mem) =
    some [(0x3000, 0xF025#16)] := by decide

/-- W7: `run` returns after the HALT. -/
theorem test_run_halts : (hostRun .standard 2 (State.reset.withFetchWord 16 0xF025)).map (fun r => (r.finalState, r.pc)) =
    some (.halted, 0x0000#16) := by decide

/-! ### Witnesses: concrete states and operands that meet the hypotheses of each obligation, clause by clause -/

/-- Halted after reset. -/
def halted : State := halt State.reset

/-- Faulted after reset. -/
def faulted : State := takeFault .illegalOpcode State.reset

/-- The PC at the last address, and at the two sides of each keyboard address. -/
theorem witness_ordinary_boundaries :
    ordinary 0x0000#16 ∧ ordinary 0xFDFF#16 ∧ ordinary 0xFE01#16 ∧ ordinary 0xFE03#16 ∧ ordinary 0xFFFF#16 := by decide

theorem witness_UnnamedBitsAreIgnored :
    0x9280#16 &&& ~~~(decode 0x9280#16).form.unnamed = 0x92BF#16 &&& ~~~(decode 0x9280#16).form.unnamed ∧
    0x8000#16 &&& ~~~(decode 0x8000#16).form.unnamed = 0x8FFF#16 &&& ~~~(decode 0x8000#16).form.unnamed ∧
    0xC1C0#16 &&& ~~~(decode 0xC1C0#16).form.unnamed = 0xCFFF#16 &&& ~~~(decode 0xC1C0#16).form.unnamed := by decide

theorem witness_StepRunsTheDecodedInstruction :
    State.reset.run = .running ∧ ordinary State.reset.pc ∧
    decode (memGet State.reset.mem State.reset.pc.toNat) = .br false false false 0#9 ∧
    (atPc 0xFFFF#16).run = .running ∧ ordinary (atPc 0xFFFF#16).pc ∧ halted.run ≠ .running ∧
    faulted.run ≠ .running := by decide

theorem witness_PlacedWordIsExecutedNext :
    decodeTableWord 16 0xF025 = some (.trap 0x25#8) ∧ decodeTableWord 16 0xFFFF = some (.trap 0xFF#8) ∧
    decodeTableWord 16 0x0000 = some (.br false false false 0#9) ∧ ordinary State.reset.pc ∧
    State.reset.run = .running ∧ ¬ ordinary (atPc 0xFE02#16).pc := by decide

theorem witness_TerminalStatesAreNeverLeft :
    halted.terminal ∧ faulted.terminal ∧ (nextOf (move .standard .core halted)).isSome = true ∧
    (nextOf (move prompting (.setPc 0xFFFF#16) faulted)).isSome = true := by decide

theorem witness_EveryStepKeepsTheInvariant :
    State.reset.Inv ∧ (nextOf (step State.reset)).isSome = true ∧ (stored 0xFFFF#16 0x0001#16).Inv ∧
    (stepped 0x3000 (stored 0xFFFF#16 0x0001#16)).isSome = true ∧
    (nextOf (stepWith prompting State.reset)).isSome = true := by decide

theorem witness_EveryInterleavingKeepsTheInvariant :
    State.reset.Inv ∧
    (nextOf (moves prompting [.write 0x3000#16 0xF020#16, .core, .arrive 0x61#8, .core, .shutDown, .setFlags .n] State.reset)).isSome
      = true ∧
    (nextOf (moves .standard [.core] (.resetWith { condReset := .p, pcReset := 0xFFFF#16 }))).isSome = true := by decide

theorem witness_FetchFromKeyboardIsIntercepted :
    (let s : State := { atPc 0xFE02#16 with inq := [0xFF#8, 0x00#8] }
     s.run = .running ∧ s.pc = 0xFE02#16 ∧ s.shut = false ∧ s.inq = 0xFF#8 :: [0x00#8]) ∧
    (let s : State := { atPc 0xFE00#16 with inq := [0x41#8] }
     s.run = .running ∧ s.pc = 0xFE00#16 ∧ s.shut = false ∧ s.inq ≠ []) ∧
    (let s : State := { atPc 0xFE00#16 with inq := [0x41#8], shut := true }
     s.run = .running ∧ s.pc = 0xFE00#16 ∧ s.shut = true) ∧
    (atPc 0xFE02#16).run = .running ∧ (atPc 0xFE02#16).pc = 0xFE02#16 ∧ (atPc 0xFE02#16).inq = [] := by decide

theorem witness_MemoryReadsBackWhatWasWritten : ordinary 0xFE01#16 ∧ 0x0000#16 ≠ 0xFFFF#16 ∧ 0xFE02#16 ≠ 0xFE00#16 := by
  decide

theorem witness_KeyboardRegistersReadAsDescribed :
    (typed [0x00#8]).shut = false ∧ (typed [0x00#8]).inq = 0x00#8 :: [] ∧
    (typed [0xFF#8, 0x61#8]).shut = false ∧ (typed [0xFF#8, 0x61#8]).inq = 0xFF#8 :: [0x61#8] ∧
    State.reset.inq = [] ∧ shutDown.shut = true := by decide

theorem witness_KeyboardWritesHaveNoDeviceEffect :
    kbsr = 0xFE00#16 ∧ kbdr = 0xFE02#16 := by decide

/-- The lowest and the highest word of every opcode meet the decoding clauses of the instruction obligations. -/
theorem witness_opcode_words :
    (0x0000#16).extractLsb' 12 4 = 0x0#4 ∧ (0x0FFF#16).extractLsb' 12 4 = 0x0#4 ∧
    (0x2000#16).extractLsb' 12 4 = 0x2#4 ∧ (0x2FFF#16).extractLsb' 12 4 = 0x2#4 ∧
    (0x3000#16).extractLsb' 12 4 = 0x3#4 ∧ (0x3FFF#16).extractLsb' 12 4 = 0x3#4 ∧
    (0x6000#16).extractLsb' 12 4 = 0x6#4 ∧ (0x6FFF#16).extractLsb' 12 4 = 0x6#4 ∧
    (0x7000#16).extractLsb' 12 4 = 0x7#4 ∧ (0x7FFF#16).extractLsb' 12 4 = 0x7#4 ∧
    (0x8000#16).extractLsb' 12 4 = 0x8#4 ∧ (0x8FFF#16).extractLsb' 12 4 = 0x8#4 ∧
    (0x9000#16).extractLsb' 12 4 = 0x9#4 ∧ (0x9FFF#16).extractLsb' 12 4 = 0x9#4 ∧
    (0xA000#16).extractLsb' 12 4 = 0xA#4 ∧ (0xAFFF#16).extractLsb' 12 4 = 0xA#4 ∧
    (0xB000#16).extractLsb' 12 4 = 0xB#4 ∧ (0xBFFF#16).extractLsb' 12 4 = 0xB#4 ∧
    (0xC000#16).extractLsb' 12 4 = 0xC#4 ∧ (0xCFFF#16).extractLsb' 12 4 = 0xC#4 ∧
    (0xD000#16).extractLsb' 12 4 = 0xD#4 ∧ (0xDFFF#16).extractLsb' 12 4 = 0xD#4 ∧
    (0xE000#16).extractLsb' 12 4 = 0xE#4 ∧ (0xEFFF#16).extractLsb' 12 4 = 0xE#4 ∧
    (0xF000#16).extractLsb' 12 4 = 0xF#4 ∧ (0xFFFF#16).extractLsb' 12 4 = 0xF#4 := by decide

/-- The same for the two forms of ADD, AND and JSR. -/
theorem witness_two_form_words :
    ((0x1000#16).extractLsb' 12 4 = 0x1#4 ∧ (0x1000#16).getLsbD 5 = false) ∧
    ((0x1FDF#16).extractLsb' 12 4 = 0x1#4 ∧ (0x1FDF#16).getLsbD 5 = false) ∧
    ((0x1020#16).extractLsb' 12 4 = 0x1#4 ∧ (0x1020#16).getLsbD 5 = true) ∧
    ((0x1FFF#16).extractLsb' 12 4 = 0x1#4 ∧ (0x1FFF#16).getLsbD 5 = true) ∧
    ((0x5000#16).extractLsb' 12 4 = 0x5#4 ∧ (0x5000#16).getLsbD 5 = false) ∧
    ((0x5FDF#16).extractLsb' 12 4 = 0x5#4 ∧ (0x5FDF#16).getLsbD 5 = false) ∧
    ((0x5020#16).extractLsb' 12 4 = 0x5#4 ∧ (0x5020#16).getLsbD 5 = true) ∧
    ((0x5FFF#16).extractLsb' 12 4 = 0x5#4 ∧ (0x5FFF#16).getLsbD 5 = true) ∧
    ((0x4800#16).extractLsb' 12 4 = 0x4#4 ∧ (0x4800#16).getLsbD 11 = true) ∧
    ((0x4FFF#16).extractLsb' 12 4 = 0x4#4 ∧ (0x4FFF#16).getLsbD 11 = true) ∧
    ((0x4000#16).extractLsb' 12 4 = 0x4#4 ∧ (0x4000#16).getLsbD 11 = false) ∧
    ((0x47FF#16).extractLsb' 12 4 = 0x4#4 ∧ (0x47FF#16).getLsbD 11 = false) := by decide

theorem witness_BrWithAllOrNoneOfTheConditions :
    oneHot State.reset.cond ∧ oneHot negative.cond ∧ oneHot positive.cond := by decide

/-- The vectors on both sides of each special one. -/
theorem witness_TrapGoesThroughTheVectorTable :
    ∀ v ∈ [0x00#8, 0x1F#8, 0x24#8, 0x26#8, 0xFF#8], v ∉ [0x20#8, 0x21#8, 0x22#8, 0x23#8, 0x25#8] := by decide

theorem witness_GetcDeliversTheCharacter :
    (let s := typed [0x41#8]; s.shut = false ∧ s.inq = 0x41#8 :: [] ∧ s.draws.headD false = false) ∧
    (let s := providerChoose [false, true] (typed [0x00#8, 0xFF#8])
     s.shut = false ∧ s.inq = 0x00#8 :: [0xFF#8] ∧ s.draws.headD false = false) := by decide

theorem witness_OutWritesTheLowByte :
    (holding .r0 0x0148#16).shut = false ∧ (holding .r0 0x0148#16).draws.headD false = false := by decide

theorem witness_PutsWritesTheString :
    hiString.shut = false ∧ stringAt hiString.mem (getReg .r0 hiString) [0x0048#16, 0x0069#16] ∧
    (∀ d ∈ hiString.draws.take 2, d = false) ∧ stringAt State.reset.mem (getReg .r0 State.reset) [] := by
  simp only [stringAt]; decide

theorem witness_InPromptsReadsAndEchoes :
    let c : Config := { inPrompt := [0x3E#8], inEcho := true }
    let s := providerChoose [false, false, false, true] (typed [0x7A#8])
    s.shut = false ∧ s.inq = 0x7A#8 :: [] ∧
    ∀ d ∈ s.draws.take (c.inPrompt.length + 1 + (if c.inEcho then 1 else 0)), d = false := by decide

theorem witness_ShutDownProviderFaultsServices :
    (∀ v ∈ [0x20#8, 0x21#8, 0x23#8], v ∈ [0x20#8, 0x21#8, 0x23#8] ∧ shutDown.shut = true) ∧
    ((providerShutDown hiString).shut = true ∧
      (memRead (getReg .r0 (providerShutDown hiString)) (providerShutDown hiString)).1 ≠ 0x0000#16) ∧
    (memRead (getReg .r0 shutDown) shutDown).1 = 0x0000#16 ∧ prompting.inPrompt ≠ [] := by decide

theorem witness_ChosenFailuresFaultServices :
    (let s := providerChoose [true] (typed [0x41#8])
     s.shut = false ∧ s.draws = true :: [] ∧ s.inq ≠ []) ∧
    (let s := providerChoose [false, true, false] hiString
     s.shut = false ∧ stringAt s.mem (getReg .r0 s) [0x0048#16, 0x0069#16] ∧ 1 < 2 ∧
       s.draws = List.replicate 1 false ++ true :: [false]) ∧
    (let s := providerChoose [true] hiString
     s.shut = false ∧ 0 < 2 ∧ s.draws = List.replicate 0 false ++ true :: []) := by
  simp only [stringAt]; decide

/-- A string that begins with the character pending at 0xFE02, and whose second byte fails. -/
def failingScan : State :=
  hostSetReg .r0 0xFE02#16 (providerChoose [false, true] { stored 0xFE03#16 0x0042#16 with inq := [0x61#8] })

/-- The clause about a PUTS that fails after it has consumed a character. -/
theorem witness_ChosenFailuresKeepWhatPutsRead :
    failingScan.shut = false ∧
    readsFrom (getReg .r0 failingScan) failingScan ([0x0061#16] ++ [0x0042#16]) (dropInput failingScan) ∧
    (∀ x ∈ [0x0061#16] ++ [0x0042#16], x ≠ 0x0000#16) ∧
    failingScan.draws = List.replicate 1 false ++ true :: [] := by
  have hr : getReg .r0 failingScan = kbdr := by decide
  have hh : hasInput failingScan = true := by decide
  refine ⟨by decide, ?_, by simp, by decide⟩
  rw [hr, List.singleton_append, readsFrom, memRead_kbdr, if_pos hh, readsFrom, memRead_ordinary (by decide), readsFrom]
  exact ⟨by decide, by decide, rfl⟩

/-- The clauses about an IN whose prompt (its first byte,
the boundary), read or echo fails. -/
theorem witness_ChosenFailuresOfIn :
    (let s := providerChoose [true] (typed [0x7A#8])
     s.shut = false ∧ s.inq ≠ [] ∧ 0 < prompting.inPrompt.length ∧ s.draws = List.replicate 0 false ++ true :: []) ∧
    (let s := providerChoose [false, true] (typed [0x7A#8])
     s.shut = false ∧ s.inq ≠ [] ∧ s.draws = List.replicate prompting.inPrompt.length false ++ true :: []) ∧
    (let s := providerChoose [false, false, true] (typed [0x7A#8])
     prompting.inEcho = true ∧ s.shut = false ∧ s.inq = 0x7A#8 :: [] ∧
       s.draws = List.replicate (prompting.inPrompt.length + 1) false ++ true :: []) := by decide

theorem witness_GetcAndInWaitForInput :
    (State.reset.shut = false ∧ State.reset.inq = []) ∧
    (let s := State.reset.withFetchWord 16 0xF020
     s.run = .running ∧ s.shut = false ∧ s.inq = [] ∧ decode (fetchWord s) = .trap 0x20#8) ∧
    (let s := State.reset.withFetchWord 16 0xF023
     s.run = .running ∧ s.shut = false ∧ s.inq = [] ∧ decode (fetchWord s) = .trap 0x23#8) := by decide

/-- Every constructor answers a next state after reset: the hypothesis of the rules over all instructions, for each
case that they tell apart. -/
theorem witness_every_instruction_answers :
    ∀ i ∈ [Instr.br true true true 0x1FF#9, .addReg .r0 .r0 .r0, .addImm .r7 .r7 0x1F#5, .ld .r0 0x1FF#9,
      .st .r7 0x100#9, .jsr 0x400#11, .jsrr .r7, .andReg .r7 .r0 .r7, .andImm .r0 .r0 0#5, .ldr .r7 .r7 0x20#6,
      .str .r0 .r0 0x1F#6, .rti, .not .r0 .r0, .ldi .r0 0#9, .sti .r0 0x0FF#9, .jmp .r7, .res, .lea .r7 0#9,
      .trap 0x00#8, .trap 0x20#8, .trap 0x21#8, .trap 0x22#8, .trap 0x23#8, .trap 0x25#8, .trap 0xFF#8],
      (nextOf (exec i State.reset)).isSome = true := by decide

theorem witness_OnlyBrReadsTheFlags :
    (Instr.addImm .r0 .r0 0#5).form ≠ .br ∧ (Instr.st .r0 0#9).form ≠ .br ∧
    (nextOf (exec (.addImm .r0 .r0 0#5) negative)).isSome = true ∧
    (nextOf (exec (.st .r0 0#9) negative)).isSome = true := by decide

theorem witness_RunChangesOnlyAsListed :
    (nextOf (exec (.trap 0x20#8) shutDown)).map (·.run) = some (.faulted .ioProviderError) ∧
    (nextOf (exec (.trap 0x20#8) State.reset)).map (·.run) = some .running ∧ faulted.run ≠ .running := by decide

theorem witness_FaultEntryChangesOnlyPcAndRunOfTheCore :
    (nextOf (stepWith prompting (State.reset.withFetchWord 16 0x8000))).map (·.run) = some (.faulted .illegalOpcode) ∧
    ordinary (State.reset.withFetchWord 16 0x8000).pc ∧ (State.reset.withFetchWord 16 0x8000).run = .running ∧
    (stepped 0x8000 State.reset).map (·.run) = some (.faulted .illegalOpcode) ∧
    (stepped 0x8000 { State.reset with pc := 0xFFFF#16 }).map (·.run) = some (.faulted .illegalOpcode) ∧
    (stepped 0xF021 shutDown).map (·.run) = some (.faulted .ioProviderError) := by decide

theorem witness_RegistersAreUsedAsTabulated :
    .r7 ∉ regsRead (.addReg .r0 .r1 .r2) ∧ .r7 ∉ regsRead (.jsrr .r7) ∧ .r0 ∉ regsRead (.trap 0x20#8) ∧
    (nextOf (exec (.jsrr .r7) State.reset)).isSome = true := by decide

theorem witness_OnlyStoresChangeMemory :
    storeAddr (.st .r0 0x1FF#9) State.reset = some 0x2FFF#16 ∧
    storeAddr (.str .r0 .r1 0x3F#6) State.reset = some 0xFFFF#16 ∧
    storeAddr (.sti .r0 0#9) State.reset = some 0x0000#16 ∧ storeAddr (.lea .r0 0#9) State.reset = none := by decide

/-- The rows of the PC table where services wait and where they do not. -/
theorem witness_PcEndsWhereTabulated :
    (State.reset.shut = false ∧ State.reset.inq = []) ∧ (typed [0x61#8]).inq ≠ [] ∧
    (nextOf (exec (.trap 0x20#8) (typed [0x61#8]))).isSome = true := by decide

/-- Both ends of the range, and the last address. -/
theorem witness_NeverTakenBranchesOnlyAdvancePc :
    (let s := stored 0x3000#16 0x01FF#16
     s.run = .running ∧ ordinary s.pc ∧ (memGet s.mem s.pc.toNat).toNat ≤ 0x01FF) ∧
    (let s := atPc 0xFFFF#16
     s.run = .running ∧ ordinary s.pc ∧ (memGet s.mem s.pc.toNat).toNat ≤ 0x01FF) := by decide

theorem witness_StoreIsSeenByTheNextFetch :
    (let s := hostSetReg .r0 0xF025#16 (stored 0x3000#16 0x3000#16)
     s.run = .running ∧ ordinary s.pc ∧ ordinary (s.pc + 1#16) ∧
       decode (memGet s.mem s.pc.toNat) = .st .r0 0#9) ∧
    (let s := hostSetPc 0xFFFF#16 (stored 0xFFFF#16 0x3E00#16)
     s.run = .running ∧ ordinary s.pc ∧ ordinary (s.pc + 1#16) ∧
       decode (memGet s.mem s.pc.toNat) = .st .r7 0#9) := by decide

theorem witness_ProviderMovesLeaveTheCoreAlone : State.reset.inq = [] ∧ State.reset.shut = false := by decide

/-- A run that ends within its bound, and one that does not. -/
theorem witness_RunReturnsTheTerminalSnapshot :
    (hostRun .standard 1 (State.reset.withFetchWord 16 0xF025)).isSome = true ∧
    (hostRun prompting 1 State.reset).isSome = false := by decide

/-- An image that ends at the last address, and an empty one. -/
theorem witness_ImagesLoadSequentiallyFromTheirOrigin :
    (0xFFFE#16).toNat + [0x1234#16, 0xF025#16].length ≤ 65536 ∧ (0xFFFF#16).toNat + ([] : List Word).length ≤ 65536 := by
  decide

/-- The general clause: a scan of the string of V-T. -/
theorem witness_PutsReadsAString :
    hiString.shut = false ∧
    readsFrom (getReg .r0 hiString) hiString ([0x0048#16, 0x0069#16] ++ [0x0000#16]) hiString ∧
    (∀ w ∈ [0x0048#16, 0x0069#16], w ≠ 0x0000#16) ∧ ∀ d ∈ hiString.draws.take 2, d = false :=
  ⟨by decide, readsFrom_stringAt (by simp only [stringAt]; decide), by simp, by decide⟩

/-- A string that ends at 0xFE00, one that passes both keyboard addresses, and a scan that starts at 0xFE02. -/
theorem witness_PutsReadsThroughTheKeyboard :
    (let s := hostSetReg .r0 0xFDFF#16 (stored 0xFDFF#16 0x0041#16)
     s.shut = false ∧ s.inq = [] ∧ wordsAt s.mem (getReg .r0 s) [0x0041#16] ∧
       getReg .r0 s + BitVec.ofNat 16 [0x0041#16].length = 0xFE00#16 ∧ ∀ d ∈ s.draws.take 1, d = false) ∧
    (let s := hostSetReg .r0 0xFDFF#16 { hostWrite 0xFE01#16 0x0042#16 (stored 0xFDFF#16 0x0041#16) with inq := [0x61#8] }
     s.shut = false ∧ s.inq = 0x61#8 :: [] ∧ 0x61#8 ≠ 0x00#8 ∧ wordsAt s.mem (getReg .r0 s) [0x0041#16] ∧
       getReg .r0 s + BitVec.ofNat 16 [0x0041#16].length = 0xFE00#16 ∧ memGet s.mem 0xFE01 ≠ 0x0000#16 ∧
       stringAt s.mem 0xFE03#16 [] ∧ ∀ d ∈ s.draws.take 4, d = false) ∧
    (let s := hostSetReg .r0 0xFE02#16 (typed [0x00#8, 0x61#8])
     s.shut = false ∧ getReg .r0 s = 0xFE02#16 ∧ s.inq = 0x00#8 :: [0x61#8]) ∧
    (holding .r0 0xFE02#16).inq = [] ∧ getReg .r0 (holding .r0 0xFE02#16) = 0xFE02#16 ∧
    (hostSetReg .r0 0xFE02#16 shutDown).shut = true := by
  simp only [wordsAt, stringAt]; decide

theorem witness_StepRunsUnderAnyParameters : State.reset.run = .running ∧ halted.run ≠ .running := by decide

/-- With the numbers of ADD and AND exchanged, the AND word renumbers to the ADD word. -/
theorem witness_ParametersChangeOnlyWhatTheyName :
    (let c : Config := { opcodeRow := fun n => if n = 1#4 then 5#4 else if n = 5#4 then 1#4 else n }
     (0x14C4#16).extractLsb' 12 4 = c.opcodeRow ((0x54C4#16).extractLsb' 12 4) ∧
       (0x14C4#16).extractLsb' 0 12 = (0x54C4#16).extractLsb' 0 12) ∧
    (Instr.jsrr .r6 ≠ .jsrr .r7 ∧ Instr.jsrr .r6 ≠ .trap 0x23#8) ∧
    (Instr.trap 0x22#8 ≠ .jsrr .r7 ∧ Instr.trap 0x22#8 ≠ .trap 0x23#8) ∧ prompting.jsrrLinkFirst = true ∧
    Config.standard.inPrompt = [] ∧ Config.standard.inEcho = false := by decide

/-- One byte, an image that ends one word too far, and two images. -/
theorem witness_LoaderDecidesWhatIsLeftOpen :
    [0x30#8].length % 2 = 1 ∧ 65536 < (0xFFFF#16).toNat + [0x1234#16, 0xF025#16].length ∧
    2 ≤ [[0x30#8, 0x00#8], [0x30#8, 0x00#8]].length := by decide

end Sys2Proof.Tests
end

section
/-! SUPPORT. The extensions in arithmetic (00_scope.md R8, R9), at every field width at once: the fields of 5, 6, 9 and
11 bits are instances. -/

namespace Sys2Proof.Machine

/-- R8: the bits above the field are all copies of its top bit. -/
theorem toNat_signExtend_word {n : Nat} (h : n ≤ 16) (v : BitVec n) :
    (v.signExtend 16).toNat = if v.toNat < 2 ^ (n - 1) then v.toNat else v.toNat + (2 ^ 16 - 2 ^ n) := by
  rw [BitVec.toNat_signExtend, BitVec.toNat_setWidth_of_le h, BitVec.msb_eq_decide]
  by_cases hv : v.toNat < 2 ^ (n - 1)
  · rw [if_pos hv, if_neg (by simpa using hv), Nat.add_zero]
  · rw [if_neg hv, if_pos (by simpa using hv)]

/-- A sign-extended field is its signed value modulo 2^16. -/
theorem toNat_signExtend_word_eq_toInt_emod {n : Nat} (v : BitVec n) :
    ((v.signExtend 16).toNat : Int) = v.toInt % 65536 := by
  rw [BitVec.signExtend, BitVec.toNat_ofInt]
  exact Int.toNat_of_nonneg (Int.emod_nonneg _ (by decide))

theorem toNat_add_signExtend_word {n : Nat} (x : Word) (v : BitVec n) :
    ((x + v.signExtend 16).toNat : Int) = ((x.toNat : Int) + v.toInt) % 65536 := by
  rw [BitVec.toNat_add, Int.natCast_emod, Int.natCast_add, toNat_signExtend_word_eq_toInt_emod]
  exact Int.add_emod_emod ..

@[simp] theorem toNat_zext8 (v : BitVec 8) : (zext8 v).toNat = v.toNat :=
  BitVec.toNat_setWidth_of_le (by decide)

/-- Settles O14: each clause is a law of sign extension to a word, at the width of its field, or of `zext8`. -/
theorem extensionsAreTheArithmeticOnes : Obligations.ExtensionsAreTheArithmeticOnes :=
  ⟨toNat_signExtend_word (by decide), toNat_signExtend_word (by decide), toNat_signExtend_word (by decide),
    toNat_signExtend_word (by decide), toNat_zext8, toNat_add_signExtend_word, toNat_add_signExtend_word,
    toNat_add_signExtend_word, toNat_add_signExtend_word⟩

end Sys2Proof.Machine
end

section
/-! SUPPORT. The condition flags (10_state.md R31, R32): `setcc` sets them from its argument, `writeResult` leaves them
the flag of the register it wrote, and no control transfer and no service touches them. -/

namespace Sys2Proof.Machine

/-- Settles O15: `setcc` is `setCond` of its argument's flag, and `reflects_flagOf` says which flag that is. -/
theorem setccFollowsTheResult : Obligations.SetccFollowsTheResult :=
  fun v _ => ⟨reflects_flagOf v, rfl⟩

theorem reflects_writeResult (dr : Reg) (v : Word) (s : State) :
    reflects (writeResult dr v s).cond (getReg dr (writeResult dr v s)) := by
  rw [writeResult_cond, getReg_writeResult_same]
  exact reflects_flagOf v

theorem execBr_cond {n z p : Bool} {off9 : BitVec 9} {s t : State} (h : execBr n z p off9 s = .next t) :
    t.cond = s.cond := by
  cases h
  split
  · exact setPc_cond _ s
  · rfl

theorem jsrrWith_cond (c : Config) (baseR : Reg) (s : State) : (jsrrWith c baseR s).cond = s.cond := by
  rw [jsrrWith, setPc_cond, link_cond]

theorem trapTransfer_cond (v : Word) (s : State) : (trapTransfer v s).cond = s.cond := by
  rw [trapTransfer, setPc_cond, memRead_cond, link_cond]

/-- However a TRAP ends, COND stays: a service uses the provider alone, then at most R7, R0, PC and RUN are written. -/
theorem trapWith_cond {c : Config} {v : BitVec 8} {s t : State} (h : trapWith c v s = .next t) : t.cond = s.cond := by
  rcases trapWith_next h with ⟨u, _, -, use, rfl⟩ | ⟨u, -, use, rfl⟩ | ⟨u, -, use, rfl⟩ | ⟨-, -, rfl⟩ | ⟨-, rfl⟩ |
    ⟨-, rfl⟩
  · rw [setReg_cond, link_cond, use.core.cond]
  · rw [link_cond, use.core.cond]
  · rw [takeFault_cond, use.core.cond]
  · exact suspend_cond s
  · rw [halt_cond, trapTransfer_cond]
  · exact trapTransfer_cond _ s

/-- Settles O41, form by form: a flag-setting instruction ends in `writeResult`, every other one keeps COND. -/
theorem flagsFollowOnlyFlagSettingInstructions : Obligations.FlagsFollowOnlyFlagSettingInstructions := by
  intro i s t h
  cases i with
  | addReg | addImm | andReg | andImm | not | ld | ldi | ldr | lea => cases h; exact reflects_writeResult _ _ _
  | st | str => cases h; exact memWrite_cond _ _ s
  | sti => cases h; exact (memWrite_cond _ _ _).trans (memRead_cond _ s)
  | br => exact execBr_cond h
  | jsr => cases h; exact (setPc_cond _ _).trans (link_cond s)
  | jsrr => cases h; exact jsrrWith_cond _ _ s
  | jmp => cases h; exact setPc_cond _ s
  | rti | res => cases h; exact takeFault_cond _ s
  | trap => exact trapWith_cond h

end Sys2Proof.Machine
end

section
/-! SUPPORT. The memory interface (20_memory.md R52, R56): a read after a write. A keyboard address reads the provider
alone, which no write touches; an ordinary address reads the memory array. -/

namespace Sys2Proof.Machine

theorem kbsr_or_kbdr_of_not_ordinary {a : Word} (h : ¬ ordinary a) : a = kbsr ∨ a = kbdr := by
  by_contra hk
  exact h (not_or.mp hk)

/-- No write, not even one to a keyboard address, changes what a keyboard address reads as. -/
theorem memRead_memWrite_keyboard {b : Word} (h : ¬ ordinary b) (a v : Word) (s : State) :
    (memRead b (memWrite a v s)).1 = (memRead b s).1 := by
  have hi : hasInput (memWrite a v s) = hasInput s := rfl
  rcases kbsr_or_kbdr_of_not_ordinary h with rfl | rfl
  · rw [memRead_kbsr, memRead_kbsr, hi]
  · rw [memRead_kbdr, memRead_kbdr, hi, memWrite_inq]
    split <;> rfl

theorem memRead_memWrite_same {a : Word} (h : ordinary a) (v : Word) (s : State) :
    memRead a (memWrite a v s) = (v, memWrite a v s) := by
  rw [memRead_ordinary h, memGet_memWrite_same]

theorem memRead_memWrite_ne {a b : Word} (h : b ≠ a) (v : Word) (s : State) :
    (memRead b (memWrite a v s)).1 = (memRead b s).1 := by
  by_cases hb : ordinary b
  · have hn : b.toNat ≠ a.toNat := mt BitVec.eq_of_toNat_eq h
    rw [memRead_ordinary hb, memRead_ordinary hb, memGet_memWrite_ne v s hn]
  · exact memRead_memWrite_keyboard hb a v s

theorem memWrite_keepsMemoryBut (a v : Word) (s : State) : KeepsMemoryBut a s (memWrite a v s) :=
  fun _ hb => memGet_memWrite_ne v s hb

/-- Settles O16: the laws of `MemRead` and `MemWrite`, each alone and then a read after a write. -/
theorem memoryReadsBackWhatWasWritten : Obligations.MemoryReadsBackWhatWasWritten :=
  ⟨fun _ s h => memRead_ordinary h s,
    fun a v s => ⟨memGet_memWrite_same a v s, memWrite_keepsMemoryBut a v s, rfl⟩,
    fun _ v s h => memRead_memWrite_same h v s,
    fun _ _ v s h => memRead_memWrite_ne h v s⟩

end Sys2Proof.Machine
end

section
/-! SUPPORT. Control transfer (40_control.md R110, R112 to R114): a taken or an untaken BR and a JMP are `setPc`, JSR and
JSRR are `setPc` after `link`; what each instruction adds is its target. -/

namespace Sys2Proof.Machine

/-- R81: the opcode field alone selects the row by which a word is decoded. -/
theorem decode_of_opcode {w : Word} {k : BitVec 4} (h : w.extractLsb' 12 4 = k) : decode w = decodeRow k w :=
  congrArg (decodeRow · w) h

theorem transfers_setPc (target : Word) (s : State) : Transfers (.next (setPc target s)) s none target :=
  ⟨_, rfl, rfl, rfl, fun _ _ => rfl, rfl, fun _ => rfl, rfl, rfl, rfl, rfl, rfl⟩

theorem link_keepsRegsBut (s : State) : KeepsRegsBut [.r7] s (link s) :=
  fun _ hq => getReg_link_ne s (List.ne_of_not_mem_cons hq)

theorem transfers_setPc_link (target : Word) (s : State) :
    Transfers (.next (setPc target (link s))) s (some s.pc) target :=
  ⟨_, rfl, rfl, getReg_link_r7 s, link_keepsRegsBut s, rfl, fun _ => rfl, rfl, rfl, rfl, rfl, rfl⟩

theorem getReg_link (q : Reg) (s : State) : getReg q (link s) = if q = .r7 then s.pc else getReg q s :=
  getReg_setReg q .r7 s.pc s

theorem branchTaken_iff {n z p : Bool} {c : BitVec 3} :
    branchTaken n z p c = true ↔ (n = true ∧ c.getLsbD 2 = true) ∨ (z = true ∧ c.getLsbD 1 = true) ∨
      (p = true ∧ c.getLsbD 0 = true) := by
  simp only [branchTaken, condN, condZ, condP, Bool.or_eq_true, Bool.and_eq_true, or_assoc]

/-- An untaken BR sets PC to where it already is. -/
theorem execBr_eq (n z p : Bool) (off9 : BitVec 9) (s : State) :
    execBr n z p off9 s =
      .next (setPc (if branchTaken n z p s.cond = true then s.pc + sext9 off9 else s.pc) s) := by
  rw [execBr]
  split <;> rfl

theorem ne_zero_iff_getLsbD (x : BitVec 3) :
    x ≠ 0#3 ↔ x.getLsbD 2 = true ∨ x.getLsbD 1 = true ∨ x.getLsbD 0 = true := by
  revert x
  decide

/-- Settles O19: `branchTaken` is the condition of R110, and the conjunction of the condition field with COND has a bit
set exactly where both have it. -/
theorem brBranchesOnASelectedFlag : Obligations.BrBranchesOnASelectedFlag := by
  refine ⟨fun _ h => decode_of_opcode h, fun n z p off9 s => ?_, fun w c => ?_⟩
  · simp only [← branchTaken_iff]
    rw [exec, execBr_eq]
    exact transfers_setPc _ s
  · rw [ne_zero_iff_getLsbD]
    simp

/-- Settles O21: bit 11 selects JSR in row 4, and JSR is the link and then the jump. -/
theorem jsrLinksAndJumpsRelative : Obligations.JsrLinksAndJumpsRelative :=
  ⟨fun _ h hbit => (decode_of_opcode h).trans (if_pos hbit), fun _ s => transfers_setPc_link _ s⟩

/-- Settles O22: JSRR reads its base register in the linked state, where R7 is the return address (R113). -/
theorem jsrrLinksThenReadsItsBase : Obligations.JsrrLinksThenReadsItsBase :=
  ⟨fun _ h hbit => (decode_of_opcode h).trans (if_neg (Bool.eq_false_iff.mp hbit)),
    fun baseR s => getReg_link baseR s ▸ transfers_setPc_link (getReg baseR (link s)) s⟩

/-- Settles O24: row 12 has one form, and JMP sets PC alone. -/
theorem jmpGoesToItsBase : Obligations.JmpGoesToItsBase :=
  ⟨fun _ h => decode_of_opcode h, fun _ s => transfers_setPc _ s⟩

end Sys2Proof.Machine
end

section
/-! SUPPORT. The operate instructions (41_operate.md R121 to R125): each is `writeResult` of a word computed from the
state before the write, so what each adds is its arithmetic on words. -/

namespace Sys2Proof.Machine

/-- R8: adding the extended immediate adds its signed value modulo 2^16. -/
theorem ofInt_toNat_add_toInt (x : Word) (v : BitVec 5) : BitVec.ofInt 16 (x.toNat + v.toInt) = x + sext5 v := by
  rw [BitVec.ofInt_add, BitVec.ofInt_natCast, BitVec.ofNat_toNat, BitVec.setWidth_eq]
  rfl

/-- An instruction that reads only registers ends in `writeResult` on its own state. -/
theorem results_writeResult_self (dr : Reg) (v : Word) (s : State) :
    Results (.next (writeResult dr v s)) s s dr v :=
  results_writeResult rfl rfl rfl rfl

/-- Settles O25: bit 5 selects the form in row 1, and word addition is the sum modulo 2^16. -/
theorem addWritesTheWrappedSum : Obligations.AddWritesTheWrappedSum := by
  refine ⟨fun _ h hbit => (decode_of_opcode h).trans (if_neg (Bool.eq_false_iff.mp hbit)),
    fun _ h hbit => (decode_of_opcode h).trans (if_pos hbit), fun dr sr1 sr2 s => ?_, fun dr sr1 imm5 s => ?_⟩
  · rw [← BitVec.add_def]
    exact results_writeResult_self dr _ s
  · rw [ofInt_toNat_add_toInt]
    exact results_writeResult_self dr _ s

/-- Settles O26: bit 5 selects the form in row 5, and either form writes the conjunction. -/
theorem andWritesTheBitwiseAnd : Obligations.AndWritesTheBitwiseAnd :=
  ⟨fun _ h hbit => (decode_of_opcode h).trans (if_neg (Bool.eq_false_iff.mp hbit)),
    fun _ h hbit => (decode_of_opcode h).trans (if_pos hbit), fun dr _ _ s => results_writeResult_self dr _ s,
    fun dr _ _ s => results_writeResult_self dr _ s⟩

/-- Settles O27: row 9 has one form, and the complement is the distance from 0xFFFF. -/
theorem notWritesTheComplement : Obligations.NotWritesTheComplement := by
  refine ⟨fun _ h => decode_of_opcode h, fun dr sr s => ?_⟩
  have hnot : 0xFFFF#16 - getReg sr s = ~~~(getReg sr s) := BitVec.allOnes_sub_eq_not _
  rw [hnot]
  exact results_writeResult_self dr _ s

end Sys2Proof.Machine
end

section
/-! SUPPORT. The load, store and address instructions (42_load_store.md R131 to R137): a load is `loadFrom` and a store
`memWrite` at the effective address, both from the state `p` that the pointer read of LDI and STI leaves, which has the
core of the state `s` before it. LD, LDR, ST and STR have no pointer read, so there `p` is `s`. -/

namespace Sys2Proof.Machine

theorem memRead_sameCore (a : Word) (s : State) : SameCore s (memRead a s).2 :=
  (memRead_use false a s).core

theorem SameCore.results_loadFrom {s p : State} (h : SameCore s p) (dr : Reg) (a : Word) :
    Results (.next (loadFrom dr a p)) s (memRead a p).2 dr (memRead a p).1 :=
  have k : SameCore s (memRead a p).2 := h.trans' (memRead_sameCore a p)
  results_writeResult k.regs k.pc k.mem k.run

theorem SameCore.stores_memWrite {s p : State} (h : SameCore s p) (a v : Word) :
    Stores (.next (memWrite a v p)) s p a v :=
  Machine.stores_memWrite a v h.regs h.pc h.cond h.mem h.run

/-- Settles O28: rows 2, 6 and 10 have one form each, and each load is `loadFrom`, for LDI after the pointer read. -/
theorem loadsWriteTheWordRead : Obligations.LoadsWriteTheWordRead :=
  ⟨fun _ h => decode_of_opcode h, fun _ h => decode_of_opcode h, fun _ h => decode_of_opcode h,
    fun dr _ s => (SameCore.rfl' s).results_loadFrom dr _,
    fun dr _ _ s => (SameCore.rfl' s).results_loadFrom dr _,
    fun dr _ s => (memRead_sameCore _ s).results_loadFrom dr _⟩

/-- Settles O29: rows 3, 7 and 11 have one form each, and each store is `memWrite`, for STI after the pointer read. -/
theorem storesWriteOneWord : Obligations.StoresWriteOneWord :=
  ⟨fun _ h => decode_of_opcode h, fun _ h => decode_of_opcode h, fun _ h => decode_of_opcode h,
    fun sr _ s => (SameCore.rfl' s).stores_memWrite _ (getReg sr s),
    fun sr _ _ s => (SameCore.rfl' s).stores_memWrite _ (getReg sr s),
    fun sr _ s => (memRead_sameCore _ s).stores_memWrite _ (getReg sr s)⟩

/-- Settles O30: row 14 has one form, and LEA's result is the address itself, so no read stands between. -/
theorem leaWritesTheAddress : Obligations.LeaWritesTheAddress :=
  ⟨fun _ h => decode_of_opcode h, fun dr _ s => results_writeResult_self dr _ s⟩

end Sys2Proof.Machine
end

section
/-! SUPPORT. The system instructions that call no service (43_system.md R150 to R152): RTI and RES are fault entry, and
TRAP with a vector that is not special is the link and then the jump to the table's word. -/

namespace Sys2Proof.Machine

/-- Settles O31: rows 8 and 13 have one form each, and both are `takeFault`, which writes RUN alone. -/
theorem rtiAndResTakeIllegalOpcode : Obligations.RtiAndResTakeIllegalOpcode :=
  ⟨fun _ h => decode_of_opcode h, fun _ h => decode_of_opcode h, fun _ => ⟨rfl, rfl⟩⟩

/-- R152 under any parameters: the table lies in ordinary memory, so reading it leaves the provider alone. -/
theorem trapWith_of_not_special (c : Config) {v : BitVec 8} (hv : v ∉ [0x20#8, 0x21#8, 0x22#8, 0x23#8, 0x25#8])
    (s : State) : trapWith c v s = .next (setPc (memGet s.mem v.toNat) (link s)) := by
  simp only [List.mem_cons, List.not_mem_nil, or_false, not_or] at hv
  obtain ⟨hGetc, hOut, hPuts, hIn, hHalt⟩ := hv
  rw [trapWith_other c hGetc hOut hPuts hIn hHalt, trapTransfer_eq, toNat_zext8]

/-- Settles O32: row 15 has one form, and the general TRAP is `setPc` after `link`, as JSR is. -/
theorem trapGoesThroughTheVectorTable : Obligations.TrapGoesThroughTheVectorTable := by
  refine ⟨fun _ h => decode_of_opcode h, fun v s hv => ?_⟩
  rw [exec, execTrap, trapWith_of_not_special _ hv]
  exact transfers_setPc_link _ s

end Sys2Proof.Machine
end

section
/-! SUPPORT. The program image (70_reset_and_hazards.md R204): its bytes read back as words, and where `storeFrom` puts
them. -/

namespace Sys2Proof.Machine

/-- The two bytes of a word, high byte first, joined again are the word. -/
theorem byteHigh_append_byteLow (w : Word) : (w.extractLsb' 8 8 ++ w.extractLsb' 0 8 : BitVec 16) = w :=
  (BitVec.extractLsb'_append_extractLsb'_eq_extractLsb' rfl).trans BitVec.extractLsb'_eq_self

/-- R204: the big-endian bytes of words are read back as those words. -/
theorem imageWords_bigEndian (ws : List Word) :
    imageWords (ws.flatMap fun w => [w.extractLsb' 8 8, w.extractLsb' 0 8]) = some ws := by
  induction ws with
  | nil => rfl
  | cons w ws ih =>
    simp only [List.flatMap_cons, List.cons_append, List.nil_append, imageWords, ih, byteHigh_append_byteLow]

theorem storeFrom_eq_with_mem (a : Word) (ws : List Word) (s : State) :
    storeFrom a ws s = { s with mem := (storeFrom a ws s).mem } := by
  induction ws generalizing a s with
  | nil => rfl
  | cons w ws ih => exact ih (a + 1#16) (hostWrite a w s)

/-- The address is a natural number, so that the induction may reach 65536 after the last word, where no store is left
to make. -/
theorem memGet_storeFrom_ofNat {n : Nat} {ws : List Word} (h : n + ws.length ≤ 65536) (s : State) (a : Nat) :
    memGet (storeFrom (BitVec.ofNat 16 n) ws s).mem a =
      if n ≤ a ∧ a < n + ws.length then ws.getD (a - n) 0#16 else memGet s.mem a := by
  induction ws generalizing n s with
  | nil => rw [if_neg (by simp), storeFrom]
  | cons w ws ih =>
    rw [List.length_cons] at h ⊢
    have hn : (BitVec.ofNat 16 n).toNat = n := Nat.mod_eq_of_lt (by omega)
    rw [storeFrom, ← BitVec.ofNat_add, ih (by omega), hostWrite]
    rcases Nat.lt_trichotomy a n with lt | rfl | gt
    · rw [if_neg (by omega), if_neg (by omega), memGet_memWrite_ne w s (by omega)]
    · rw [if_neg (by omega), if_pos (by omega), Nat.sub_self, List.getD_cons_zero]
      have written := memGet_memWrite_same (BitVec.ofNat 16 a) w s
      rwa [hn] at written
    · by_cases inside : a < n + 1 + ws.length
      · have hs : a - n = a - (n + 1) + 1 := by omega
        rw [if_pos (by omega), if_pos (by omega), hs, List.getD_cons_succ]
      · rw [if_neg (by omega), if_neg (by omega), memGet_memWrite_ne w s (by omega)]

theorem loadImages_of_fits (c : Config) {image : List Byte} {origin : Word} {ws : List Word}
    (hw : imageWords image = some (origin :: ws)) (h : origin.toNat + ws.length ≤ memWords) (s : State) :
    loadImages c [image] s = some (storeFrom origin ws s) := by
  simp only [loadImages, hw, if_pos h]

/-- Settles O53: the bytes are read back as the origin and the words, which fit, so they are stored by `storeFrom`. -/
theorem imagesLoadSequentiallyFromTheirOrigin : Obligations.ImagesLoadSequentiallyFromTheirOrigin := by
  intro c s origin ws h
  refine ⟨_, loadImages_of_fits c (imageWords_bigEndian (origin :: ws)) h s, fun a => ?_,
    storeFrom_eq_with_mem origin ws s⟩
  have law := memGet_storeFrom_ofNat h s a
  rwa [BitVec.ofNat_toNat, BitVec.setWidth_eq] at law

end Sys2Proof.Machine
end

section
/-! SUPPORT. The encoding (30_encoding.md R81 to R104): fields read and put back, and the round trips. The other
statements about the encoding follow from those two facts: that a word fits the row by which it is decoded, and what the
encoding of a word's decoding is made of. -/

namespace Sys2Proof

/-! ### Fields and places -/

theorem getLsbD_field (lo len : Nat) (w : Word) (i : Nat) :
    (field lo len w).getLsbD i = (decide (i < len) && w.getLsbD (lo + i)) :=
  BitVec.getLsbD_extractLsb' ..

theorem getLsbD_place {n : Nat} (lo : Nat) (v : BitVec n) {i : Nat} (hi : i < 16) :
    (place lo v).getLsbD i = (decide (lo ≤ i) && v.getLsbD (i - lo)) := by
  rw [place, BitVec.getLsbD_shiftLeft, BitVec.getLsbD_setWidth]
  by_cases h : lo ≤ i
  · simp [h, hi, Nat.not_lt.mpr h, show i - lo < 16 by omega]
  · simp [h, Nat.not_le.mp h]

@[simp] theorem field_or (lo len : Nat) (w v : Word) : field lo len (w ||| v) = field lo len w ||| field lo len v :=
  BitVec.extractLsb'_or

theorem field_and (lo len : Nat) (w v : Word) : field lo len (w &&& v) = field lo len w &&& field lo len v :=
  BitVec.extractLsb'_and

theorem field_literal (lo len n : Nat) : field lo len (BitVec.ofNat 16 n) = (BitVec.ofNat 16 n).extractLsb' lo len :=
  rfl

@[simp] theorem field_place_same {n : Nat} (lo : Nat) (v : BitVec n) (h : lo + n ≤ 16) :
    field lo n (place lo v) = v := by
  refine BitVec.eq_of_getLsbD_eq fun i hi => ?_
  rw [getLsbD_field, getLsbD_place lo v (by omega)]
  simp [hi]

/-- A field placed elsewhere leaves the bits zero. -/
theorem field_place_disjoint {n : Nat} (lo len lo' : Nat) (v : BitVec n) (h : lo + len ≤ lo' ∨ lo' + n ≤ lo)
    (hlen : lo + len ≤ 16) : field lo len (place lo' v) = 0#len := by
  refine BitVec.eq_of_getLsbD_eq fun i hi => ?_
  rw [getLsbD_field, getLsbD_place lo' v (by omega), BitVec.getLsbD_zero]
  rcases h with h | h
  · simp [show ¬ lo' ≤ lo + i by omega]
  · simp [BitVec.getLsbD_of_ge v (lo + i - lo') (by omega)]

@[simp] theorem bitOf_or (i : Nat) (w v : Word) : bitOf i (w ||| v) = (bitOf i w || bitOf i v) :=
  BitVec.getLsbD_or

theorem bitOf_place {n : Nat} (i lo : Nat) (v : BitVec n) (hi : i < 16) :
    bitOf i (place lo v) = (decide (lo ≤ i) && v.getLsbD (i - lo)) :=
  getLsbD_place lo v hi

theorem bitOf_literal (i n : Nat) : bitOf i (BitVec.ofNat 16 n) = (BitVec.ofNat 16 n).getLsbD i := rfl

theorem ofBool_bitOf (i : Nat) (w : Word) : BitVec.ofBool (bitOf i w) = field i 1 w := by
  refine BitVec.eq_of_getLsbD_eq fun j hj => ?_
  obtain rfl : j = 0 := by omega
  rw [getLsbD_field]
  simp [bitOf]

/-- A field put back where it was is the word with every other bit cleared. -/
theorem place_field (lo len : Nat) (w : Word) : place lo (field lo len w) = w &&& place lo (BitVec.allOnes len) := by
  refine word_ext fun i hi => ?_
  rw [getLsbD_place _ _ hi, getLsbD_field, BitVec.getLsbD_and, getLsbD_place _ _ hi, BitVec.getLsbD_allOnes]
  by_cases h : lo ≤ i
  · simp [h, Bool.and_comm]
  · simp [h]

@[simp] theorem place_zero (lo n : Nat) : place lo 0#n = 0#16 := by
  rw [place, BitVec.setWidth_zero, BitVec.zero_shiftLeft]

/-- Of a placed field a mask keeps the bits that its own field there keeps. -/
theorem place_and {n : Nat} (lo : Nat) (v : BitVec n) (m : Word) :
    place lo v &&& m = place lo (v &&& field lo n m) := by
  refine word_ext fun i hi => ?_
  rw [getLsbD_place _ _ hi, BitVec.getLsbD_and, getLsbD_place _ _ hi, BitVec.getLsbD_and, getLsbD_field]
  by_cases h : lo ≤ i
  · by_cases hv : i - lo < n
    · simp [h, hv]
    · simp [BitVec.getLsbD_of_ge v (i - lo) (by omega)]
  · simp [h]

/-! ### Rows -/

/-- The opcode number is fixed in every row. -/
theorem Form.opcode_of_fits {f : Form} {w : Word} (h : f.fits w = true) : field 12 4 w = field 12 4 f.pattern := by
  have hm : field 12 4 f.mask = BitVec.allOnes 4 := by cases f <;> decide
  have hw := congrArg (field 12 4) (beq_iff_eq.mp h)
  rwa [field_and, hm, BitVec.and_allOnes] at hw

/-- The patterns of two rows differ in a bit that is fixed in both. -/
theorem Form.eq_of_patterns_agree {f g : Form} (h : f.pattern &&& g.mask = g.pattern &&& f.mask) : f = g := by
  revert h
  cases f <;> cases g <;> decide

theorem Form.fits_unique {f g : Form} {w : Word} (hf : f.fits w = true) (hg : g.fits w = true) : f = g := by
  refine Form.eq_of_patterns_agree ?_
  rw [← beq_iff_eq.mp hf, ← beq_iff_eq.mp hg, BitVec.and_assoc, BitVec.and_assoc, BitVec.and_comm f.mask]

/-- The bits that tell the nineteen rows apart: the opcode number, bit 11 and bit 5. -/
def selecting (w : Word) : Word := w &&& 0xF820#16

theorem selecting_eq (w : Word) :
    selecting w = place 12 (field 12 4 w) ||| place 11 (field 11 1 w) ||| place 5 (field 5 1 w) := by
  rw [place_field, place_field, place_field, ← BitVec.and_or_distrib_left, ← BitVec.and_or_distrib_left]
  rfl

theorem fits_selecting (f : Form) (w : Word) : f.fits (selecting w) = f.fits w := by
  have hm : 0xF820#16 &&& f.mask = f.mask := by cases f <;> decide
  rw [Form.fits, selecting, BitVec.and_assoc, hm, Form.fits]

theorem form_decodeRow_congr (row : BitVec 4) {w v : Word} (h5 : bitOf 5 w = bitOf 5 v)
    (h11 : bitOf 11 w = bitOf 11 v) : (decodeRow row w).form = (decodeRow row v).form := by
  unfold decodeRow
  rw [h5, h11]
  split
  case h_2 | h_6 => cases bitOf 5 v <;> rfl
  case h_5 => cases bitOf 11 v <;> rfl
  all_goals rfl

theorem form_decode_selecting (w : Word) : (decode (selecting w)).form = (decode w).form := by
  have hop : field 12 4 (selecting w) = field 12 4 w := (field_and 12 4 w _).trans BitVec.and_allOnes
  rw [decode, hop]
  exact form_decodeRow_congr _ (by simp [bitOf, selecting]) (by simp [bitOf, selecting])

/-- A word has the fixed bits of the row by which it is decoded: only the selecting bits matter, and they take 64
values. -/
theorem fits_form_decode (w : Word) : (decode w).form.fits w = true := by
  have rows : ∀ (k : BitVec 4) (b11 b5 : BitVec 1),
      (decode (place 12 k ||| place 11 b11 ||| place 5 b5)).form.fits (place 12 k ||| place 11 b11 ||| place 5 b5)
        = true := by decide
  rw [← form_decode_selecting, ← fits_selecting, selecting_eq]
  exact rows _ _ _

/-- Settles O3: a word fits the row by which it is decoded, and no two rows fit one word. -/
theorem everyWordMatchesExactlyItsRow : Obligations.EveryWordMatchesExactlyItsRow := by
  intro w f
  refine ⟨fun h => Form.fits_unique (fits_form_decode w) h, ?_⟩
  rintro rfl
  exact fits_form_decode w

/-! ### Decoding an encoding -/

theorem fits_encode (i : Instr) : i.form.fits (encode i) = true := by
  cases i with
  | br => exact Laws.FixedBits.br ..
  | addReg => exact Laws.FixedBits.addReg ..
  | addImm => exact Laws.FixedBits.addImm ..
  | ld => exact Laws.FixedBits.ld ..
  | st => exact Laws.FixedBits.st ..
  | jsr => exact Laws.FixedBits.jsr ..
  | jsrr => exact Laws.FixedBits.jsrr ..
  | andReg => exact Laws.FixedBits.andReg ..
  | andImm => exact Laws.FixedBits.andImm ..
  | ldr => exact Laws.FixedBits.ldr ..
  | str => exact Laws.FixedBits.str ..
  | rti => exact Laws.FixedBits.rti
  | not => exact Laws.FixedBits.not ..
  | ldi => exact Laws.FixedBits.ldi ..
  | sti => exact Laws.FixedBits.sti ..
  | jmp => exact Laws.FixedBits.jmp ..
  | res => exact Laws.FixedBits.res
  | lea => exact Laws.FixedBits.lea ..
  | trap => exact Laws.FixedBits.trap ..

/-- The fixed bits of the encoding select the instruction's row, and the row reads each field where it was placed. -/
theorem decode_encode (i : Instr) : decode (encode i) = i := by
  have hop := Form.opcode_of_fits (fits_encode i)
  rw [decode, hop]
  cases i <;>
    simp [decodeRow, encode, Instr.form, Form.pattern, field_literal, bitOf_literal, regHi, regMid, regLo,
      field_place_disjoint, bitOf_place, Reg.ofBits_bits]

/-- No field is placed over an unnamed bit. -/
theorem encode_and_unnamed (i : Instr) : encode i &&& i.form.unnamed = i.form.conventional := by
  cases i <;>
    simp [encode, Instr.form, Form.unnamed, Form.conventional, BitVec.and_or_distrib_right, place_and, field_literal]

/-! ### Encoding a decoding -/

/-- The bits of a word that are fields of the form: those neither fixed nor unnamed. -/
def Form.named (f : Form) : Word := ~~~(f.mask ||| f.unnamed)

theorem or_fields (P w a b : Word) : P ||| (w &&& a) ||| (w &&& b) = P ||| (w &&& (a ||| b)) := by
  rw [BitVec.or_assoc, BitVec.and_or_distrib_left]

/-- Whatever the row by which a word is decoded, encoding puts the word's fields back where they were. -/
theorem encode_decodeRow (row : BitVec 4) (w : Word) :
    encode (decodeRow row w) = (decodeRow row w).form.pattern ||| (decodeRow row w).form.conventional |||
      (w &&& (decodeRow row w).form.named) := by
  unfold decodeRow
  split
  case h_2 | h_5 | h_6 =>
    split <;> simp only [encode, regHi, regMid, regLo, Reg.bits_ofBits, place_field, or_fields, Instr.form] <;>
      exact congrArg₂ (fun P m => P ||| (w &&& m)) (by decide) (by decide)
  case h_9 | h_14 => exact (BitVec.and_zero (x := w)) ▸ rfl
  all_goals
    simp only [encode, regHi, regMid, Reg.bits_ofBits, ofBool_bitOf, place_field, or_fields, Instr.form]
    exact congrArg₂ (fun P m => P ||| (w &&& m)) (by decide) (by decide)

/-- The encoding of a word's decoding has the word's own fixed bits and fields, and conventional bits between them. -/
theorem encode_decode_eq (w : Word) :
    encode (decode w) =
      (w &&& (decode w).form.mask) ||| (decode w).form.conventional ||| (w &&& (decode w).form.named) := by
  rw [beq_iff_eq.mp (fits_form_decode w)]
  exact encode_decodeRow _ w

theorem encode_decode (w : Word) :
    encode (decode w) &&& ~~~(decode w).form.unnamed = w &&& ~~~(decode w).form.unnamed := by
  rw [encode_decode_eq]
  generalize (decode w).form = f
  have hconv : f.conventional &&& ~~~f.unnamed = 0#16 := by cases f <;> decide
  have hall : (f.mask ||| f.named) &&& ~~~f.unnamed = ~~~f.unnamed := by cases f <;> decide
  calc ((w &&& f.mask) ||| f.conventional ||| (w &&& f.named)) &&& ~~~f.unnamed
      = ((w &&& f.mask) ||| (w &&& f.named)) &&& ~~~f.unnamed := by
        rw [BitVec.and_or_distrib_right, BitVec.and_or_distrib_right, hconv, BitVec.or_zero,
          ← BitVec.and_or_distrib_right]
    _ = w &&& ~~~f.unnamed := by rw [← BitVec.and_or_distrib_left, BitVec.and_assoc, hall]

/-- Settles O1: both round trips. -/
theorem decodeOfEncodeIsTheInstruction : Obligations.DecodeOfEncodeIsTheInstruction :=
  ⟨decode_encode, encode_decode⟩

/-- Words that agree on a mask agree on every smaller one. -/
theorem and_eq_and_of_mask {w v n m : Word} (h : w &&& n = v &&& n) (hm : n &&& m = m) : w &&& m = v &&& m := by
  rw [← hm, ← BitVec.and_assoc, h, BitVec.and_assoc]

/-- Agreeing in all but the unnamed bits, two words fit the same row and have the same encoding of their decoding. -/
theorem decode_eq_of_agree {w v : Word}
    (h : w &&& ~~~(decode w).form.unnamed = v &&& ~~~(decode w).form.unnamed) : decode v = decode w := by
  have hmask : ∀ f : Form, ~~~f.unnamed &&& f.mask = f.mask := fun f => by cases f <;> decide
  have hnamed : ∀ f : Form, ~~~f.unnamed &&& f.named = f.named := fun f => by cases f <;> decide
  have hfix := and_eq_and_of_mask h (hmask _)
  have hfit : (decode w).form.fits v = true := by
    rw [Form.fits, ← hfix]
    exact fits_form_decode w
  have hform : (decode v).form = (decode w).form := Form.fits_unique (fits_form_decode v) hfit
  have henc : encode (decode v) = encode (decode w) := by
    rw [encode_decode_eq, encode_decode_eq, hform, hfix, and_eq_and_of_mask h (hnamed _)]
  rw [← decode_encode (decode v), henc, decode_encode]

/-- Settles O2: unnamed bits are no part of the encoding of a decoding, and the encoder places no field over them. -/
theorem unnamedBitsAreIgnored : Obligations.UnnamedBitsAreIgnored :=
  ⟨fun _ _ => decode_eq_of_agree, encode_and_unnamed⟩

/-- Settles O4: the words of W1 are literals, decoded one by one. -/
theorem sampleWordsDecodeToTheirFields : Obligations.SampleWordsDecodeToTheirFields := by
  unfold Obligations.SampleWordsDecodeToTheirFields
  decide

/-! ### What the decoder reads of a word -/

/-- The fields lie in the low twelve bits. -/
theorem decodeRow_congr (row : BitVec 4) {w v : Word} (h : v.extractLsb' 0 12 = w.extractLsb' 0 12) :
    decodeRow row v = decodeRow row w := by
  have hbit : ∀ i < 12, bitOf i v = bitOf i w := fun i hi => by
    have hi' := congrArg (BitVec.getLsbD · i) h
    simpa [bitOf, hi] using hi'
  have hfield : ∀ lo len, lo + len ≤ 12 → field lo len v = field lo len w := fun lo len hle =>
    BitVec.eq_of_getLsbD_eq fun i hi => by
      rw [getLsbD_field, getLsbD_field, show v.getLsbD (lo + i) = w.getLsbD (lo + i) from hbit _ (by omega)]
  simp [decodeRow, regHi, regMid, regLo, hbit, hfield]

/-- R99: a word below 0x0200 is the encoding of a BR with no condition bit. -/
theorem decode_of_le {w : Word} (h : w.toNat ≤ 0x01FF) : decode w = .br false false false (field 0 9 w) := by
  have hlow : w &&& 0x01FF#16 = w := by
    refine BitVec.eq_of_toNat_eq ?_
    rw [BitVec.toNat_and]
    exact (Nat.and_two_pow_sub_one_eq_mod w.toNat 9).trans (Nat.mod_eq_of_lt (by omega))
  have henc : encode (.br false false false (field 0 9 w)) = w := by
    rw [encode, place_field]
    exact (congrArg (· ||| _) (show _ = 0#16 by decide)).trans (BitVec.zero_or.trans hlow)
  rw [← decode_encode (.br false false false (field 0 9 w)), henc]

end Sys2Proof
end

section
/-! SUPPORT. What an instruction can change, one component of the state at a time, under any parameters: COND, memory,
RUN, PC and the provider. Each law is the same case split, over the forms and, for TRAP, over `trapWith_next`. -/

namespace Sys2Proof.Machine

theorem getReg_of_regs_eq {s t : State} (h : t.regs = s.regs) (q : Reg) : getReg q t = getReg q s :=
  congrArg (Regs.get · q) h

theorem exec_of_execWith {i : Instr} {s t : State} (h : exec i s = .next t) : execWith .standard i s = .next t :=
  (execWith_standard i s).trans h

/-! ### Memory (20_memory.md R62, R66) -/

theorem trapTransfer_mem (v : Word) (s : State) : (trapTransfer v s).mem = s.mem := by
  rw [trapTransfer, setPc_mem, memRead_mem, link_mem]

theorem trapWith_mem {c : Config} {v : BitVec 8} {s t : State} (h : trapWith c v s = .next t) : t.mem = s.mem := by
  rcases trapWith_next h with ⟨u, _, -, use, rfl⟩ | ⟨u, -, use, rfl⟩ | ⟨u, -, use, rfl⟩ | ⟨-, -, rfl⟩ | ⟨-, rfl⟩ |
    ⟨-, rfl⟩
  · rw [setReg_mem, link_mem, use.core.mem]
  · rw [link_mem, use.core.mem]
  · rw [takeFault_mem, use.core.mem]
  · exact suspend_mem s
  · rw [halt_mem, trapTransfer_mem]
  · exact trapTransfer_mem _ s

theorem execBr_mem {n z p : Bool} {off9 : BitVec 9} {s t : State} (h : execBr n z p off9 s = .next t) :
    t.mem = s.mem := by
  rw [execBr_eq] at h
  cases h
  rfl

theorem execWith_mem {c : Config} {i : Instr} {s t : State} (h : execWith c i s = .next t) :
    (∃ a v, storeAddr i s = some a ∧ t.mem = memSet s.mem a.toNat v) ∨ (storeAddr i s = none ∧ t.mem = s.mem) := by
  cases i with
  | st | str => cases h; exact .inl ⟨_, _, rfl, rfl⟩
  | sti => cases h; exact .inl ⟨_, _, rfl, by rw [memWrite_mem, memRead_mem]⟩
  | ld | ldr => cases h; exact .inr ⟨rfl, memRead_mem _ s⟩
  | ldi => cases h; exact .inr ⟨rfl, (memRead_mem _ _).trans (memRead_mem _ s)⟩
  | br => exact .inr ⟨rfl, execBr_mem h⟩
  | trap => exact .inr ⟨rfl, trapWith_mem h⟩
  | addReg | addImm | andReg | andImm | not | lea | jsr | jsrr | jmp | rti | res => cases h; exact .inr ⟨rfl, rfl⟩

/-- Settles O46: only a store writes memory, at the address it stores to. -/
theorem onlyStoresChangeMemory : Obligations.OnlyStoresChangeMemory := by
  intro i s t h
  rcases execWith_mem (exec_of_execWith h) with ⟨a, v, ha, hm⟩ | ⟨ha, hm⟩ <;> rw [ha]
  · intro b hb
    rw [hm, memGet_memSet_ne _ _ hb]
  · intro b
    rw [hm]

/-! ### The invariant (10_state.md R28; log entry 1) -/

theorem execWith_cond {c : Config} {i : Instr} {s t : State} (h : execWith c i s = .next t) :
    (∃ v, t.cond = flagBits (flagOf v)) ∨ t.cond = s.cond := by
  cases i with
  | addReg | addImm | andReg | andImm | not | ld | ldi | ldr | lea => cases h; exact .inl ⟨_, rfl⟩
  | sti => cases h; exact .inr (memRead_cond _ s)
  | br => exact .inr (execBr_cond h)
  | jsrr => cases h; exact .inr (jsrrWith_cond c _ s)
  | trap => exact .inr (trapWith_cond h)
  | st | str | jsr | jmp | rti | res => cases h; exact .inr rfl

theorem execWith_keeps_inv {c : Config} {i : Instr} {s t : State} (hs : s.Inv) (h : execWith c i s = .next t) :
    t.Inv := by
  obtain ⟨hwf, hone⟩ := hs
  constructor
  · rcases execWith_mem h with ⟨a, v, -, hm⟩ | ⟨-, hm⟩ <;> rw [hm]
    · exact memSet_wf hwf (toNat_lt_memWords a) v
    · exact hwf
  · rcases execWith_cond h with ⟨v, hc⟩ | hc <;> rw [hc]
    · exact oneHot_flagBits _
    · exact hone

theorem afterFetch_inv {s : State} (h : s.Inv) : (afterFetch s).Inv := by
  rwa [State.Inv, afterFetch_mem, afterFetch_cond]

theorem stepWith_keeps_inv {c : Config} {s t : State} (hs : s.Inv) (h : stepWith c s = .next t) : t.Inv := by
  by_cases hrun : s.run = .running
  · rw [stepWith_running c hrun] at h
    exact execWith_keeps_inv (afterFetch_inv hs) h
  · rw [stepWith_terminal c hrun] at h
    cases h
    exact hs

/-- Settles O8: fetch and increment keep memory and COND, and every instruction keeps the invariant. -/
theorem everyStepKeepsTheInvariant : Obligations.EveryStepKeepsTheInvariant :=
  ⟨fun s _ hs h => stepWith_keeps_inv (c := .standard) hs ((stepWith_standard s).trans h),
    fun _ _ _ hs h => stepWith_keeps_inv hs h⟩

theorem resetWith_inv (c : Config) : (State.resetWith c).Inv :=
  ⟨⟨.nil, fun _ h => absurd h List.not_mem_nil⟩, oneHot_flagBits _⟩

/-- Settles O9: memory is empty and COND is the encoding of a flag. -/
theorem resetHasTheInvariant : Obligations.ResetHasTheInvariant :=
  ⟨resetWith_inv, resetWith_inv .standard⟩

/-- What every move of every agent keeps, every sequence of moves keeps. -/
theorem moves_keep {c : Config} {P : State → Prop} (hmove : ∀ {m s t}, P s → move c m s = .next t → P t)
    {ms : List Move} {s t : State} (hs : P s) (h : moves c ms s = .next t) : P t := by
  induction ms generalizing s with
  | nil => cases h; exact hs
  | cons m ms ih =>
    rw [moves] at h
    cases hm : move c m s with
    | next u => rw [hm] at h; exact ih (hmove hs hm) h
    | fault f => rw [hm] at h; cases h
    | refused r => rw [hm] at h; cases h

theorem move_keeps_inv {c : Config} {m : Move} {s t : State} (hs : s.Inv) (h : move c m s = .next t) : t.Inv := by
  cases m with
  | core => exact stepWith_keeps_inv hs h
  | write a v => cases h; exact ⟨memWrite_wf hs.1 a v, hs.2⟩
  | setFlags f => cases h; exact ⟨hs.1, oneHot_flagBits f⟩
  | arrive | shutDown | choose | setReg | setPc => cases h; exact hs

/-- Settles O10: every move of every agent keeps the invariant, and reset has it. -/
theorem everyInterleavingKeepsTheInvariant : Obligations.EveryInterleavingKeepsTheInvariant :=
  ⟨fun _ _ _ _ hs h => moves_keep move_keeps_inv hs h,
    fun c _ _ h => (moves_keep move_keeps_inv (resetWith_inv c) h).2⟩

/-! ### PC (10_state.md R27) -/

theorem awaitsInput_iff {s : State} : awaitsInput s = true ↔ s.shut = false ∧ s.inq = [] := by
  simp [awaitsInput]

/-- R155, R192: GETC and IN wait under any parameters, before a prompt is written. -/
theorem trapWith_waits (c : Config) {v : BitVec 8} {s : State} (hv : v ∈ [0x20#8, 0x23#8])
    (h : awaitsInput s = true) : trapWith c v s = .next (suspend s) := by
  rcases List.mem_pair.mp hv with rfl | rfl
  · rw [trapWith_getc, serviceGetc, if_pos h]; rfl
  · rw [trapWith_in, serviceIn, if_pos h]; rfl

theorem trapTransfer_pc (v : BitVec 8) (s : State) : (trapTransfer (zext8 v) s).pc = memGet s.mem v.toNat := by
  rw [trapTransfer_eq, setPc_pc, toNat_zext8]

/-- Where TRAP leaves PC: back at the instruction where it waits, at `pc` after any other service, and at the table's
word for every other vector. -/
theorem trapWith_pc {c : Config} {v : BitVec 8} {s t : State} (h : trapWith c v s = .next t) :
    if v ∈ [0x20#8, 0x21#8, 0x22#8, 0x23#8] then
      if v ∈ [0x20#8, 0x23#8] ∧ s.shut = false ∧ s.inq = [] then t.pc = s.pc - 1#16 else t.pc = s.pc
    else t.pc = memGet s.mem v.toNat := by
  by_cases hw : v ∈ [0x20#8, 0x23#8] ∧ s.shut = false ∧ s.inq = []
  · have hv : v ∈ [0x20#8, 0x21#8, 0x22#8, 0x23#8] := by rcases List.mem_pair.mp hw.1 with rfl | rfl <;> decide
    rw [trapWith_waits c hw.1 (awaitsInput_iff.mpr hw.2)] at h
    cases h
    rw [if_pos hv, if_pos hw, suspend_pc]
  · rw [if_neg hw]
    rcases trapWith_next h with ⟨u, _, hv, use, rfl⟩ | ⟨u, hv, use, rfl⟩ | ⟨u, hv, use, rfl⟩ | ⟨hv, ha, rfl⟩ |
      ⟨rfl, rfl⟩ | ⟨hv, rfl⟩
    · rw [if_pos (by rcases hv with rfl | rfl <;> decide)]
      exact use.core.pc
    · rw [if_pos (by rcases hv with rfl | rfl <;> decide)]
      exact use.core.pc
    · rw [if_pos hv]
      exact use.core.pc
    · exact absurd ⟨List.mem_pair.mpr hv, awaitsInput_iff.mp ha⟩ hw
    · rw [if_neg (by decide), halt_pc, trapTransfer_pc]
    · rw [if_neg (by simp at hv ⊢; tauto), trapTransfer_pc]

/-- Settles O48, form by form: an instruction that transfers control sets PC, every other one keeps it. -/
theorem pcEndsWhereTabulated : Obligations.PcEndsWhereTabulated := by
  intro i s t h
  cases i with
  | br => rw [exec, execBr_eq] at h; cases h; rfl
  | jsrr => cases h; exact getReg_link _ s
  | trap => exact trapWith_pc h
  | ld | ldr | sti => cases h; exact memRead_pc _ s
  | ldi => cases h; exact (memRead_pc _ _).trans (memRead_pc _ s)
  | jmp | jsr | addReg | addImm | andReg | andImm | not | lea | st | str | rti | res => cases h; rfl

/-! ### RUN (10_state.md R33) -/

/-- What TRAP makes of RUN: HALT halts, a service that fails faults and changes nothing but the provider besides. -/
theorem trapWith_run {c : Config} {v : BitVec 8} {s t : State} (h : trapWith c v s = .next t) :
    (v = 0x25#8 ∧ t.run = .halted) ∨
      (v ∈ [0x20#8, 0x21#8, 0x22#8, 0x23#8] ∧ ∃ u, ProviderUse (mayWrite c v) s u ∧ t = takeFault .ioProviderError u) ∨
      (v ≠ 0x25#8 ∧ t.run = s.run) := by
  rcases trapWith_next h with ⟨u, _, hv, use, rfl⟩ | ⟨u, hv, use, rfl⟩ | ⟨u, hv, use, rfl⟩ | ⟨hv, -, rfl⟩ |
    ⟨rfl, rfl⟩ | ⟨hv, rfl⟩
  · exact .inr (.inr ⟨by rcases hv with rfl | rfl <;> decide, use.core.run⟩)
  · exact .inr (.inr ⟨by rcases hv with rfl | rfl <;> decide, use.core.run⟩)
  · exact .inr (.inl ⟨hv, u, use, rfl⟩)
  · exact .inr (.inr ⟨by rcases hv with rfl | rfl <;> decide, rfl⟩)
  · exact .inl ⟨rfl, rfl⟩
  · exact .inr (.inr ⟨fun e => hv (by simp [e]), by rw [trapTransfer_eq]; rfl⟩)

theorem execWith_keeps_run {c : Config} {i : Instr} {s t : State} (hi : i.form ∉ [.trap, .rti, .res])
    (h : execWith c i s = .next t) : t.run = s.run := by
  cases i with
  | trap | rti | res => simp [Instr.form] at hi
  | br => rw [execWith, exec, execBr_eq] at h; cases h; rfl
  | ld | ldr | sti => cases h; exact memRead_run _ s
  | ldi => cases h; exact (memRead_run _ _).trans (memRead_run _ s)
  | addReg | addImm | andReg | andImm | not | lea | st | str | jsr | jsrr | jmp => cases h; rfl

/-- An instruction that faults does nothing else but use the provider, and with IllegalOpcode not even that. -/
theorem execWith_faults {c : Config} {i : Instr} {s t : State} {r : FaultReason} (hs : s.run = .running)
    (h : execWith c i s = .next t) (ht : t.run = .faulted r) :
    ∃ u w, ProviderUse w s u ∧ t = takeFault r u ∧ (r = .illegalOpcode → u = s ∧ (i = .rti ∨ i = .res)) := by
  by_cases hi : i.form ∉ [.trap, .rti, .res]
  · rw [execWith_keeps_run hi h, hs] at ht
    cases ht
  cases i with
  | trap v =>
    rcases trapWith_run h with ⟨-, hr⟩ | ⟨-, u, use, rfl⟩ | ⟨-, hr⟩
    · rw [hr] at ht; cases ht
    · cases ht; exact ⟨u, _, use, rfl, by simp⟩
    · rw [hr, hs] at ht; cases ht
  | rti => cases h; cases ht; exact ⟨s, false, .rfl' _ s, rfl, fun _ => ⟨rfl, .inl rfl⟩⟩
  | res => cases h; cases ht; exact ⟨s, false, .rfl' _ s, rfl, fun _ => ⟨rfl, .inr rfl⟩⟩
  | _ => simp [Instr.form] at hi

theorem exec_changes_run {i : Instr} {s t : State} (h : exec i s = .next t) :
    if i = .trap 0x25#8 then t.run = .halted
    else if i = .rti ∨ i = .res then t.run = .faulted .illegalOpcode
    else if i ∈ [.trap 0x20#8, .trap 0x21#8, .trap 0x22#8, .trap 0x23#8] then
      t.run = s.run ∨ t.run = .faulted .ioProviderError
    else t.run = s.run := by
  cases i with
  | trap v =>
    rcases trapWith_run h with ⟨rfl, hr⟩ | ⟨hv, u, use, rfl⟩ | ⟨hv, hr⟩
    · rwa [if_pos rfl]
    · rw [if_neg, if_neg (by simp), if_pos (by simpa using hv)]
      · exact .inr rfl
      · rintro ⟨⟩
        exact absurd hv (by decide)
    · rw [if_neg (by simpa using hv), if_neg (by simp)]
      split
      · exact .inl hr
      · exact hr
  | rti | res => cases h; simp
  | _ => simpa using execWith_keeps_run (by simp [Instr.form]) (exec_of_execWith h)

/-! ### The provider (10_state.md R37, R38; 60_exceptions.md R189) -/

/-- Whether an instruction may append to OUTQ. -/
def instrMayWrite (c : Config) : Instr → Bool
  | .trap v => mayWrite c v
  | _ => false

/-- An instruction leaves the provider as some use of it does. -/
theorem execWith_provider {c : Config} {i : Instr} {s t : State} (h : execWith c i s = .next t) :
    ∃ u, ProviderUse (instrMayWrite c i) s u ∧ KeepsProvider u t := by
  have keeps : ∀ w, ∃ u, ProviderUse w s u ∧ KeepsProvider u s := fun w => ⟨s, .rfl' w s, rfl, rfl, rfl, rfl⟩
  cases i with
  | trap v =>
    rcases trapWith_next h with ⟨u, _, -, use, rfl⟩ | ⟨u, -, use, rfl⟩ | ⟨u, -, use, rfl⟩ | ⟨-, -, rfl⟩ |
      ⟨-, rfl⟩ | ⟨-, rfl⟩
    · exact ⟨u, use, rfl, rfl, rfl, rfl⟩
    · exact ⟨u, use, rfl, rfl, rfl, rfl⟩
    · exact ⟨u, use, rfl, rfl, rfl, rfl⟩
    · exact keeps _
    · rw [trapTransfer_eq]; exact keeps _
    · rw [trapTransfer_eq]; exact keeps _
  | br => rw [execWith, exec, execBr_eq] at h; cases h; exact keeps _
  | ld | ldr | sti => cases h; exact ⟨_, memRead_use _ _ s, rfl, rfl, rfl, rfl⟩
  | ldi => cases h; exact ⟨_, (memRead_use _ _ s).trans' (memRead_use _ _ _), rfl, rfl, rfl, rfl⟩
  | addReg | addImm | andReg | andImm | not | lea | st | str | jsr | jsrr | jmp | rti | res => cases h; exact keeps _

/-- Settles O47: every instruction's effect on the provider is a use of it, and only OUT and PUTS may write. -/
theorem providerIsUsedOnlyThroughItsCalls : Obligations.ProviderIsUsedOnlyThroughItsCalls := by
  intro i s t h
  obtain ⟨u, use, hinq, houtq, hshut, -⟩ := execWith_provider (exec_of_execWith h)
  obtain ⟨written, hw, hnone⟩ := use.outq
  refine ⟨hshut.trans use.core.shut, hinq ▸ use.inq, written, houtq.trans hw, fun hne => ?_⟩
  have hmay : instrMayWrite .standard i = true := by
    by_contra hf
    exact hne (hnone (by simpa using hf))
  cases i with
  | trap v => exact (mayWrite_standard hmay).imp (congrArg Instr.trap) (congrArg Instr.trap)
  | _ => cases hmay

/-! ### Fault entry (60_exceptions.md R172, R173) -/

/-- A step that faults is fetch and increment, a use of the provider, and fault entry. -/
theorem stepWith_faults {c : Config} {s t : State} {r : FaultReason} (hs : s.run = .running)
    (h : stepWith c s = .next t) (ht : t.run = .faulted r) :
    ∃ u w, ProviderUse w (afterFetch s) u ∧ t = takeFault r u ∧
      (r = .illegalOpcode → u = afterFetch s ∧
        (decodeWith c (fetchWord s) = .rti ∨ decodeWith c (fetchWord s) = .res)) := by
  rw [stepWith_running c hs] at h
  exact execWith_faults ((afterFetch_run s).trans hs) h ht

theorem stepWith_faults_frame {c : Config} {s t : State} {r : FaultReason} (hs : s.run = .running)
    (h : stepWith c s = .next t) (ht : t.run = .faulted r) :
    t.pc = s.pc + 1#16 ∧ t.regs = s.regs ∧ t.cond = s.cond ∧ KeepsMemory s t ∧ t.shut = s.shut ∧
      (∃ taken, s.inq = taken ++ t.inq) ∧ (∃ written, t.outq = s.outq ++ written) ∧
      ∃ used, s.draws = used ++ t.draws := by
  obtain ⟨u, w, use, rfl, -⟩ := stepWith_faults hs h ht
  obtain ⟨fetched, hfetched⟩ := memRead_inq s.pc s
  obtain ⟨taken, htaken⟩ := use.inq
  obtain ⟨written, hwritten, -⟩ := use.outq
  obtain ⟨used, hused⟩ := use.draws
  rw [afterFetch_outq] at hwritten
  rw [afterFetch_draws] at hused
  refine ⟨use.core.pc, use.core.regs.trans (afterFetch_regs s), use.core.cond.trans (afterFetch_cond s), fun a => ?_,
    use.core.shut.trans (afterFetch_shut s), ⟨fetched ++ taken, ?_⟩, ⟨written, hwritten⟩, used, hused⟩
  · rw [takeFault_mem, use.core.mem, afterFetch_mem]
  · rw [List.append_assoc, takeFault_inq, ← htaken]
    exact hfetched

theorem stepWith_illegal_keepsProvider {c : Config} {s t : State} (hs : s.run = .running)
    (hfetch : (memRead s.pc s).2 = s) (h : stepWith c s = .next t) (ht : t.run = .faulted .illegalOpcode) :
    KeepsProvider s t := by
  obtain ⟨u, w, -, rfl, hu⟩ := stepWith_faults hs h ht
  obtain ⟨rfl, -⟩ := hu rfl
  rw [afterFetch, hfetch]
  exact ⟨rfl, rfl, rfl, rfl⟩

/-- What KBDR returns is a character, and every character is a BR that is never taken (R58, R99). -/
theorem decode_zext8 (b : BitVec 8) : decode (zext8 b) = .br false false false (field 0 9 (zext8 b)) :=
  decode_of_le (by rw [toNat_zext8]; have := b.isLt; omega)

/-- Settles O44: the frame is that of a use of the provider; and a fetch that consumes a character at KBDR executes it,
a BR under the default opcode numbers. -/
theorem faultEntryChangesOnlyPcAndRunOfTheCore : Obligations.FaultEntryChangesOnlyPcAndRunOfTheCore := by
  refine ⟨fun c s t r hs h ht => stepWith_faults_frame hs h ht, fun c s t hs hpc h ht => ?_, fun s t hs h ht => ?_⟩
  · exact stepWith_illegal_keepsProvider hs (by rw [memRead_ordinary hpc]) h ht
  · rw [← stepWith_standard] at h
    rcases memRead_state s.pc s with hkeep | ⟨hpc, hin, -⟩
    · exact stepWith_illegal_keepsProvider hs hkeep h ht
    · obtain ⟨_, _, -, -, hu⟩ := stepWith_faults hs h ht
      have hword : fetchWord s = zext8 (s.inq.headD 0#8) := by rw [fetchWord, hpc, memRead_kbdr, if_pos hin]
      have hop := (hu rfl).2
      rw [hword, decodeWith_standard, decode_zext8] at hop
      simp at hop

end Sys2Proof.Machine
end

section
/-! SUPPORT. The keyboard registers (20_memory.md R53 to R58), reset, the step, and the moves of the three agents. -/

namespace Sys2Proof.Machine

/-! ### The keyboard registers (R53, R54, R57) -/

theorem hasInput_iff {s : State} : hasInput s = true ↔ s.inq ≠ [] ∧ s.shut = false := by
  simp [hasInput, and_comm]

theorem hasInput_eq_false_iff {s : State} : hasInput s = false ↔ s.inq = [] ∨ s.shut = true := by
  simp [hasInput, or_comm, Classical.or_iff_not_imp_left]

theorem memRead_kbdr_pending {s : State} {c : Byte} {rest : List Byte} (hs : s.shut = false)
    (hq : s.inq = c :: rest) : memRead kbdr s = (zext8 c, { s with inq := rest }) := by
  rw [memRead_kbdr, if_pos (hasInput_iff.mpr ⟨by simp [hq], hs⟩), dropInput, hq]
  rfl

theorem memRead_kbdr_empty {s : State} (h : s.inq = [] ∨ s.shut = true) : memRead kbdr s = (0x0000#16, s) := by
  rw [memRead_kbdr, if_neg (by simp [hasInput_eq_false_iff.mpr h])]

theorem memRead_kbsr_empty {s : State} (h : s.inq = [] ∨ s.shut = true) : memRead kbsr s = (0x0000#16, s) := by
  rw [memRead_kbsr, if_neg (by simp [hasInput_eq_false_iff.mpr h])]

theorem memRead_kbsr_pending {s : State} (hq : s.inq ≠ []) (hs : s.shut = false) :
    memRead kbsr s = (0x8000#16, s) := by
  rw [memRead_kbsr, if_pos (hasInput_iff.mpr ⟨hq, hs⟩)]

/-- Settles O17: KBSR tests `hasInput`, and KBDR takes the pending character. -/
theorem keyboardRegistersReadAsDescribed : Obligations.KeyboardRegistersReadAsDescribed := by
  refine ⟨fun s => ?_, fun s c rest hs hq => ?_, fun s h => memRead_kbdr_empty h⟩
  · exact (memRead_kbsr s).trans (by simp only [hasInput_iff])
  · have hread := memRead_kbdr_pending hs hq
    exact ⟨(congrArg (·.1.toNat) hread).trans (toNat_zext8 c), congrArg Prod.snd hread⟩

/-- Settles O18: the keyboard address that was written is no ordinary one, and every other reads as it did. -/
theorem keyboardWritesHaveNoDeviceEffect : Obligations.KeyboardWritesHaveNoDeviceEffect := by
  intro a v s ha
  refine ⟨⟨rfl, rfl, rfl, rfl⟩, memGet_memWrite_same a v s, fun b => ?_⟩
  by_cases hb : b = a
  · have hkeyboard : ¬ ordinary b := by rw [hb]; rcases ha with rfl | rfl <;> decide
    exact memRead_memWrite_keyboard hkeyboard a v s
  · exact memRead_memWrite_ne hb v s

/-! ### The step (10_state.md R26, R34) -/

theorem afterFetch_ordinary {s : State} (h : ordinary s.pc) : afterFetch s = setPc (s.pc + 1#16) s := by
  rw [afterFetch, memRead_ordinary h]

theorem fetchWord_ordinary {s : State} (h : ordinary s.pc) : fetchWord s = memGet s.mem s.pc.toNat := by
  rw [fetchWord, memRead_ordinary h]

theorem step_ordinary {s : State} (hs : s.run = .running) (h : ordinary s.pc) :
    step s = exec (decode (memGet s.mem s.pc.toNat)) (setPc (s.pc + 1#16) s) := by
  rw [step_running hs, fetchWord_ordinary h, afterFetch_ordinary h]

/-- Settles O5: the step's equations while Running, at an ordinary PC, and in a terminal state. -/
theorem stepRunsTheDecodedInstruction : Obligations.StepRunsTheDecodedInstruction :=
  ⟨fun _ hs => step_running hs, fun _ _ hs hpc hi => hi ▸ step_ordinary hs hpc, fun _ hs => step_terminal hs⟩

/-- Settles O55: the same equations under any parameters, and the defaults. -/
theorem stepRunsUnderAnyParameters : Obligations.StepRunsUnderAnyParameters :=
  ⟨fun c _ hs => stepWith_running c hs, fun c _ hs => stepWith_terminal c hs, decodeWith_standard, execWith_standard,
    stepWith_standard⟩

/-- Settles O12: reset is a literal state. -/
theorem resetStateIsAsListed : Obligations.ResetStateIsAsListed :=
  ⟨fun _ => rfl, rfl, fun r => by cases r <;> rfl, rfl, rfl, rfl, rfl, rfl, fun _ r => ⟨by cases r <;> rfl, rfl⟩⟩

/-- A BR with no condition bit leaves the state as it is. -/
theorem exec_br_never (off9 : BitVec 9) (s : State) : exec (.br false false false off9) s = .next s := rfl

/-- Settles O20: with exactly one flag set some condition bit selects it, and with no condition bit none does. -/
theorem brWithAllOrNoneOfTheConditions : Obligations.BrWithAllOrNoneOfTheConditions := by
  refine ⟨fun off9 s hone => ?_, exec_br_never⟩
  have htaken : branchTaken true true true s.cond = true := by
    rcases hone with h | h | h <;> rw [h] <;> decide
  rw [exec, execBr_eq, if_pos htaken]
  exact transfers_setPc _ s

/-- Settles O49: such a word is a BR with no condition bit. -/
theorem neverTakenBranchesOnlyAdvancePc : Obligations.NeverTakenBranchesOnlyAdvancePc := by
  intro s hs hpc hw
  rw [step_ordinary hs hpc, decode_of_le hw]
  exact exec_br_never _ _

theorem step_of_memRead {s t : State} {w : Word} (hs : s.run = .running) (h : memRead s.pc s = (w, t)) :
    step s = exec (decode w) (setPc (s.pc + 1#16) t) := by
  rw [step_running hs, fetchWord, afterFetch, h]

/-- Settles O13: the fetch reads the character or 0x0000, a BR with no condition bit, or 0x8000, which is RTI. -/
theorem fetchFromKeyboardIsIntercepted : Obligations.FetchFromKeyboardIsIntercepted := by
  refine ⟨fun s c rest hs hpc hshut hq => ?_, fun s hs hpc hshut hq => ?_, fun s hs hpc hno => ?_⟩
  · have hread := (congrArg (memRead · s) hpc).trans (memRead_kbdr_pending hshut hq)
    rw [step_of_memRead hs hread, decode_zext8, hpc]
    exact exec_br_never _ _
  · have hread := (congrArg (memRead · s) hpc).trans (memRead_kbsr_pending hq hshut)
    rw [step_of_memRead hs hread, show decode 0x8000#16 = .rti by decide, hpc]
    rfl
  · have hread : memRead s.pc s = (0x0000#16, s) := by
      rcases hpc with hpc | hpc <;> rw [hpc]
      · exact memRead_kbsr_empty hno
      · exact memRead_kbdr_empty hno
    rw [step_of_memRead hs hread, decode_of_le (by decide)]
    exact exec_br_never _ _

/-- Settles O50: the store is to the address that the step leaves in PC, and a fetch from there reads it back. -/
theorem storeIsSeenByTheNextFetch : Obligations.StoreIsSeenByTheNextFetch := by
  intro s sr hs hpc hpc' hst
  have hfirst : step s = .next (memWrite (s.pc + 1#16) (getReg sr s) (setPc (s.pc + 1#16) s)) := by
    rw [step_ordinary hs hpc, hst]
    show Host.Outcome.next (memWrite (s.pc + 1#16 + 0#16) _ _) = _
    rw [BitVec.add_zero]
    rfl
  generalize ht : memWrite (s.pc + 1#16) (getReg sr s) (setPc (s.pc + 1#16) s) = t at hfirst
  have htpc : t.pc = s.pc + 1#16 := by rw [← ht]; rfl
  have htrun : t.run = .running := by rw [← ht]; exact hs
  have htpc' : ordinary t.pc := by rwa [htpc]
  have hword : memGet t.mem t.pc.toNat = getReg sr s := by
    rw [htpc, ← ht]
    exact memGet_memWrite_same _ _ _
  refine ⟨t, hfirst, htpc, (fetchWord_ordinary htpc').trans hword, ?_⟩
  rw [step_ordinary htrun htpc', hword, htpc, BitVec.add_assoc]
  rfl

/-! ### The word that the host places (log entry 9) -/

theorem fetchPlace_ordinary (s : State) : ordinary (fetchPlace s) := by
  rw [fetchPlace]
  split
  · decide
  · exact not_or.mp ‹_›

theorem fetchPlace_of_ordinary {s : State} (h : ordinary s.pc) : fetchPlace s = s.pc :=
  if_neg (not_or.mpr h)

/-- Settles O6: the place is an ordinary address, so that the next fetch reads the word stored there. -/
theorem placedWordIsExecutedNext : Obligations.PlacedWordIsExecutedNext := by
  intro s w i hi
  have hdec : decode (BitVec.ofNat 16 (w % 2 ^ 16)) = i := Option.some.inj hi
  have hword : memGet (s.withFetchWord 16 w).mem (s.withFetchWord 16 w).pc.toNat = BitVec.ofNat 16 (w % 2 ^ 16) :=
    memGet_memWrite_same (fetchPlace s) _ s
  refine ⟨?_, rfl, rfl, memWrite_keepsMemoryBut _ _ s, ⟨rfl, rfl, rfl, rfl⟩,
    fun hpc hs => ⟨fetchPlace_of_ordinary hpc, hs.symm⟩⟩
  rw [step_ordinary rfl (fetchPlace_ordinary s), hword, hdec]
  rfl

/-! ### The three agents (00_scope.md R13) -/

theorem move_of_terminal {c : Config} {m : Move} {s t : State} (hs : s.terminal) (h : move c m s = .next t) :
    t.run = s.run := by
  cases m with
  | core =>
    rw [move, stepWith_terminal c hs] at h
    cases h
    rfl
  | _ => cases h; rfl

/-- Settles O7: a step in a terminal state changes nothing, and no other move writes RUN. -/
theorem terminalStatesAreNeverLeft : Obligations.TerminalStatesAreNeverLeft :=
  ⟨fun _ hs => step_terminal hs, fun c _ hs => stepWith_terminal c hs, fun _ _ _ _ hs h => move_of_terminal hs h⟩

/-- Settles O51: the provider's moves are updates of one field, and KBDR reads the front of INQ. -/
theorem providerMovesLeaveTheCoreAlone : Obligations.ProviderMovesLeaveTheCoreAlone := by
  intro s b fails
  refine ⟨rfl, rfl, rfl, fun hq hs => ?_⟩
  have hread : memRead kbdr (providerArrive b s) = (zext8 b, _) :=
    memRead_kbdr_pending (rest := []) hs (by rw [providerArrive_inq, hq]; rfl)
  exact (congrArg (·.1.toNat) hread).trans (toNat_zext8 b)

end Sys2Proof.Machine
end

section
/-! SUPPORT. What an instruction does not read (10_state.md R22, R30, R33). Two runs from start states that agree on PC,
memory, the provider and the registers that the instruction reads stay parallel: every component of the core agrees, or
is in each run what it was at its start. Every operation of the model keeps that, so every instruction does. -/

namespace Sys2Proof.Machine

/-- The states `t` and `u`, reached from `s` and `p`: PC, memory and the provider agree, and each register, COND and RUN
agree or are still as in `s` and `p`. -/
structure Parallel (s p t u : State) : Prop where
  pc : u.pc = t.pc
  mem : u.mem = t.mem
  provider : KeepsProvider t u
  reg : ∀ q, getReg q u = getReg q t ∨ (getReg q t = getReg q s ∧ getReg q u = getReg q p)
  cond : u.cond = t.cond ∨ (t.cond = s.cond ∧ u.cond = p.cond)
  run : u.run = t.run ∨ (t.run = s.run ∧ u.run = p.run)

section
variable {s p t u : State}

theorem Parallel.start (hpc : p.pc = s.pc) (hm : p.mem = s.mem) (hp : KeepsProvider s p) : Parallel s p s p :=
  ⟨hpc, hm, hp, fun _ => .inr ⟨rfl, rfl⟩, .inr ⟨rfl, rfl⟩, .inr ⟨rfl, rfl⟩⟩

/-! ### The operations -/

theorem Parallel.setReg (h : Parallel s p t u) (r : Reg) (v : Word) :
    Parallel s p (Machine.setReg r v t) (Machine.setReg r v u) := by
  refine ⟨h.pc, h.mem, h.provider, fun q => ?_, h.cond, h.run⟩
  rw [getReg_setReg, getReg_setReg]
  split
  · exact .inl rfl
  · exact h.reg q

theorem Parallel.setPc (h : Parallel s p t u) (v : Word) : Parallel s p (Machine.setPc v t) (Machine.setPc v u) :=
  ⟨rfl, h.mem, h.provider, h.reg, h.cond, h.run⟩

theorem Parallel.link (h : Parallel s p t u) : Parallel s p (Machine.link t) (Machine.link u) := by
  rw [Machine.link, Machine.link, h.pc]
  exact h.setReg .r7 t.pc

theorem Parallel.suspend (h : Parallel s p t u) : Parallel s p (Machine.suspend t) (Machine.suspend u) := by
  rw [Machine.suspend, Machine.suspend, h.pc]
  exact h.setPc _

theorem Parallel.writeResult (h : Parallel s p t u) (dr : Reg) (v : Word) :
    Parallel s p (Machine.writeResult dr v t) (Machine.writeResult dr v u) :=
  have k := h.setReg dr v
  ⟨k.pc, k.mem, k.provider, k.reg, .inl rfl, k.run⟩

theorem Parallel.takeFault (h : Parallel s p t u) (r : FaultReason) :
    Parallel s p (Machine.takeFault r t) (Machine.takeFault r u) :=
  ⟨h.pc, h.mem, h.provider, h.reg, h.cond, .inl rfl⟩

theorem Parallel.halt (h : Parallel s p t u) : Parallel s p (Machine.halt t) (Machine.halt u) :=
  ⟨h.pc, h.mem, h.provider, h.reg, h.cond, .inl rfl⟩

theorem Parallel.memWrite (h : Parallel s p t u) (a v : Word) :
    Parallel s p (Machine.memWrite a v t) (Machine.memWrite a v u) :=
  ⟨h.pc, congrArg (memSet · _ _) h.mem, h.provider, h.reg, h.cond, h.run⟩

theorem Parallel.dropInput (h : Parallel s p t u) : Parallel s p (Machine.dropInput t) (Machine.dropInput u) :=
  have ⟨hi, ho, hs, hd⟩ := h.provider
  ⟨h.pc, h.mem, ⟨congrArg List.tail hi, ho, hs, hd⟩, h.reg, h.cond, h.run⟩

theorem Parallel.dropDraw (h : Parallel s p t u) : Parallel s p (Machine.dropDraw t) (Machine.dropDraw u) :=
  have ⟨hi, ho, hs, hd⟩ := h.provider
  ⟨h.pc, h.mem, ⟨hi, ho, hs, congrArg List.tail hd⟩, h.reg, h.cond, h.run⟩

theorem Parallel.pushOutput (h : Parallel s p t u) (b : Byte) :
    Parallel s p (Machine.pushOutput b t) (Machine.pushOutput b u) :=
  have ⟨hi, ho, hs, hd⟩ := h.provider
  ⟨h.pc, h.mem, ⟨hi, congrArg (· ++ [b]) ho, hs, hd⟩, h.reg, h.cond, h.run⟩

theorem Parallel.hasInput (h : Parallel s p t u) : hasInput u = hasInput t := by
  obtain ⟨hi, -, hs, -⟩ := h.provider
  rw [Machine.hasInput, Machine.hasInput, hi, hs]

theorem Parallel.awaitsInput (h : Parallel s p t u) : awaitsInput u = awaitsInput t := by
  obtain ⟨hi, -, hs, -⟩ := h.provider
  rw [Machine.awaitsInput, Machine.awaitsInput, hi, hs]

theorem Parallel.callFails (h : Parallel s p t u) : callFails u = callFails t := by
  obtain ⟨-, -, hs, hd⟩ := h.provider
  rw [Machine.callFails, Machine.callFails, hs, hd]

/-- Parallel states read the same word, and stay parallel. -/
theorem Parallel.memRead (h : Parallel s p t u) (a : Word) :
    (memRead a u).1 = (memRead a t).1 ∧ Parallel s p (memRead a t).2 (memRead a u).2 := by
  simp only [Machine.memRead, h.hasInput, h.mem, h.provider.1]
  split
  · exact ⟨rfl, h⟩
  · split
    · split
      · exact ⟨rfl, h.dropInput⟩
      · exact ⟨rfl, h⟩
    · exact ⟨rfl, h⟩

/-! ### The provider's calls and the services (43_system.md R155) -/

/-- Two calls that end alike, in parallel states. -/
inductive ParallelCall (s p : State) {α : Type} : Call α → Call α → Prop where
  | ok (a : α) {t u : State} (h : Parallel s p t u) : ParallelCall s p (.ok a t) (.ok a u)
  | failed {t u : State} (h : Parallel s p t u) : ParallelCall s p (.failed t) (.failed u)

/-- Two services that end alike, in parallel states. -/
inductive ParallelEnd (s p : State) : ServiceResult → ServiceResult → Prop where
  | finished (char : Option Byte) {t u : State} (h : Parallel s p t u) :
    ParallelEnd s p (.finished char t) (.finished char u)
  | failed {t u : State} (h : Parallel s p t u) : ParallelEnd s p (.failed t) (.failed u)
  | waiting : ParallelEnd s p .waiting .waiting
  | unended : ParallelEnd s p .unended .unended

theorem Parallel.callWrite (h : Parallel s p t u) (b : Byte) :
    ParallelCall s p (callWrite b t) (callWrite b u) := by
  rw [Machine.callWrite, Machine.callWrite, h.callFails]
  split
  · exact .failed h.dropDraw
  · exact .ok () (h.dropDraw.pushOutput b)

theorem Parallel.callRead (h : Parallel s p t u) : ParallelCall s p (callRead t) (callRead u) := by
  rw [Machine.callRead, Machine.callRead, h.callFails, h.provider.1]
  split
  · exact .failed h.dropDraw
  · split
    · exact .failed h.dropDraw
    · exact .ok _ h.dropDraw.dropInput

theorem Parallel.callWriteAll (h : Parallel s p t u) (bs : List Byte) :
    ParallelCall s p (callWriteAll bs t) (callWriteAll bs u) := by
  induction bs generalizing t u with
  | nil => exact .ok () h
  | cons b bs ih =>
    rw [Machine.callWriteAll, Machine.callWriteAll]
    have hcall := h.callWrite b
    generalize Machine.callWrite b t = x, Machine.callWrite b u = y at hcall
    cases hcall with
    | ok _ k => exact ih k
    | failed k => exact .failed k

theorem Parallel.serviceGetc (h : Parallel s p t u) : ParallelEnd s p (serviceGetc t) (serviceGetc u) := by
  rw [Machine.serviceGetc, Machine.serviceGetc, h.awaitsInput]
  split
  · exact .waiting
  · have hcall := h.callRead
    generalize Machine.callRead t = x, Machine.callRead u = y at hcall
    cases hcall with
    | ok b k => exact .finished (some b) k
    | failed k => exact .failed k

theorem Parallel.serviceOut (h : Parallel s p t u) (hr : getReg .r0 u = getReg .r0 t) :
    ParallelEnd s p (serviceOut t) (serviceOut u) := by
  rw [Machine.serviceOut, Machine.serviceOut, hr]
  have hcall := h.callWrite (lowByte (getReg .r0 t))
  generalize Machine.callWrite _ t = x, Machine.callWrite _ u = y at hcall
  cases hcall with
  | ok _ k => exact .finished none k
  | failed k => exact .failed k

theorem Parallel.putsScan (h : Parallel s p t u) (fuel : Nat) (a : Word) :
    ParallelEnd s p (putsScan fuel a t) (putsScan fuel a u) := by
  induction fuel generalizing a t u with
  | zero => exact .unended
  | succ fuel ih =>
    obtain ⟨hw, hread⟩ := h.memRead a
    simp only [Machine.putsScan, hw]
    split
    · exact .finished none hread
    · have hcall := hread.callWrite (lowByte (Machine.memRead a t).1)
      generalize Machine.callWrite _ (Machine.memRead a t).2 = x,
        Machine.callWrite _ (Machine.memRead a u).2 = y at hcall
      cases hcall with
      | ok _ k => exact ih k (a + 1#16)
      | failed k => exact .failed k

theorem Parallel.servicePuts (h : Parallel s p t u) (hr : getReg .r0 u = getReg .r0 t) :
    ParallelEnd s p (servicePuts t) (servicePuts u) := by
  rw [Machine.servicePuts, Machine.servicePuts, putsFuel, putsFuel, hr, h.provider.1]
  exact h.putsScan _ _

theorem Parallel.serviceIn (h : Parallel s p t u) (c : Config) : ParallelEnd s p (serviceIn c t) (serviceIn c u) := by
  rw [Machine.serviceIn, Machine.serviceIn, h.awaitsInput]
  split
  · exact .waiting
  have hprompt := h.callWriteAll c.inPrompt
  generalize Machine.callWriteAll _ t = x, Machine.callWriteAll _ u = y at hprompt
  cases hprompt with
  | failed k => exact .failed k
  | @ok _ t u k =>
  have hcall := k.callRead
  dsimp only
  generalize Machine.callRead t = x, Machine.callRead u = y at hcall
  cases hcall with
  | failed k => exact .failed k
  | @ok b t u k =>
  dsimp only
  split
  · have hecho := k.callWrite b
    generalize Machine.callWrite b t = x, Machine.callWrite b u = y at hecho
    cases hecho with
    | ok _ k => exact .finished (some b) k
    | failed k => exact .failed k
  · exact .finished (some b) k

/-! ### Instructions -/

/-- If the first outcome is a next state, then the second is a parallel one. -/
def ParallelOutcome (s p : State) (o q : Host.Outcome State Fault Refusal) : Prop :=
  ∀ t, o = .next t → ∃ u, q = .next u ∧ Parallel s p t u

theorem Parallel.next (h : Parallel s p t u) : ParallelOutcome s p (.next t) (.next u) := by
  rintro _ ⟨⟩
  exact ⟨u, rfl, h⟩

theorem Parallel.endService (h : Parallel s p t u) {r q : ServiceResult} (hr : ParallelEnd s p r q) :
    ParallelOutcome s p (endService t r) (endService u q) := by
  cases hr with
  | @finished char _ _ k =>
    cases char with
    | none => exact k.link.next
    | some b => exact (k.link.setReg .r0 _).next
  | failed k => exact (k.takeFault _).next
  | waiting => exact h.suspend.next
  | unended => rintro _ ⟨⟩

theorem Parallel.trapWith (h : Parallel s p t u) (c : Config) (v : BitVec 8)
    (hr : v = 0x21#8 ∨ v = 0x22#8 → getReg .r0 u = getReg .r0 t) :
    ParallelOutcome s p (trapWith c v t) (trapWith c v u) := by
  have transfer : Parallel s p (trapTransfer (zext8 v) t) (trapTransfer (zext8 v) u) := by
    rw [trapTransfer_eq, trapTransfer_eq, h.mem]
    exact h.link.setPc _
  by_cases h0 : v = 0x20#8
  · subst h0; rw [trapWith_getc, trapWith_getc]; exact h.endService h.serviceGetc
  by_cases h1 : v = 0x21#8
  · subst h1; rw [trapWith_out, trapWith_out]; exact h.endService (h.serviceOut (hr (.inl rfl)))
  by_cases h2 : v = 0x22#8
  · subst h2; rw [trapWith_puts, trapWith_puts]; exact h.endService (h.servicePuts (hr (.inr rfl)))
  by_cases h3 : v = 0x23#8
  · subst h3; rw [trapWith_in, trapWith_in]; exact h.endService (h.serviceIn c)
  by_cases h5 : v = 0x25#8
  · subst h5; rw [trapWith_halt, trapWith_halt]; exact transfer.halt.next
  rw [trapWith_other c h0 h1 h2 h3 h5, trapWith_other c h0 h1 h2 h3 h5]
  exact transfer.next

theorem Parallel.loadFrom (h : Parallel s p t u) (dr : Reg) (a : Word) :
    Parallel s p (loadFrom dr a t) (loadFrom dr a u) := by
  obtain ⟨hw, hread⟩ := h.memRead a
  rw [Machine.loadFrom, Machine.loadFrom, hw]
  exact hread.writeResult dr _

theorem Parallel.eaPc9 (h : Parallel s p t u) (off9 : BitVec 9) : eaPc9 off9 u = eaPc9 off9 t := by
  rw [Machine.eaPc9, Machine.eaPc9, h.pc]

/-- From parallel states that agree on the registers an instruction reads, and for BR on COND, its next states are
parallel. -/
theorem Parallel.exec (h : Parallel s p t u) (i : Instr) (hr : ∀ q ∈ regsRead i, getReg q u = getReg q t)
    (hc : i.form = .br → u.cond = t.cond) : ParallelOutcome s p (exec i t) (exec i u) := by
  cases i with simp only [Machine.exec, regsRead, List.forall_mem_cons, List.not_mem_nil, false_implies, implies_true,
    and_true] at hr ⊢
  | br => rw [execBr_eq, execBr_eq, hc rfl, h.pc]; exact (h.setPc _).next
  | addReg => rw [execAddReg, execAddReg, hr.1, hr.2]; exact (h.writeResult _ _).next
  | addImm => rw [execAddImm, execAddImm, hr]; exact (h.writeResult _ _).next
  | andReg => rw [execAndReg, execAndReg, hr.1, hr.2]; exact (h.writeResult _ _).next
  | andImm => rw [execAndImm, execAndImm, hr]; exact (h.writeResult _ _).next
  | not => rw [execNot, execNot, hr]; exact (h.writeResult _ _).next
  | ld => rw [execLd, execLd, h.eaPc9]; exact (h.loadFrom _ _).next
  | ldr => rw [execLdr, execLdr, eaBase6, eaBase6, hr]; exact (h.loadFrom _ _).next
  | ldi dr off9 =>
    obtain ⟨hw, hread⟩ := h.memRead (Machine.eaPc9 off9 t)
    rw [execLdi, execLdi, h.eaPc9, hw]
    exact (hread.loadFrom _ _).next
  | st => rw [execSt, execSt, h.eaPc9, hr]; exact (h.memWrite _ _).next
  | str => rw [execStr, execStr, eaBase6, eaBase6, hr.1, hr.2]; exact (h.memWrite _ _).next
  | sti sr off9 =>
    obtain ⟨hw, hread⟩ := h.memRead (Machine.eaPc9 off9 t)
    rw [execSti, execSti, h.eaPc9, hw, hr]
    exact (hread.memWrite _ _).next
  | lea => rw [execLea, execLea, h.eaPc9]; exact (h.writeResult _ _).next
  | jmp => rw [execJmp, execJmp, hr]; exact (h.setPc _).next
  | jsr => rw [execJsr, execJsr, eaPc11, eaPc11, h.pc]; exact (h.link.setPc _).next
  | jsrr b =>
    have hbase : getReg b (Machine.link u) = getReg b (Machine.link t) := by
      rw [getReg_link, getReg_link, h.pc]
      split
      · rfl
      · exact hr b (by simp [*])
    show ParallelOutcome s p (.next (Machine.setPc (getReg b (Machine.link t)) (Machine.link t)))
      (.next (Machine.setPc (getReg b (Machine.link u)) (Machine.link u)))
    rw [hbase]
    exact (h.link.setPc _).next
  | rti | res => exact (h.takeFault _).next
  | trap v => exact h.trapWith _ v fun hv => hr .r0 (by rw [if_pos hv]; exact List.mem_singleton_self _)

end

/-- The instruction reads nothing in which the states `s` and `p` differ. -/
theorem exec_parallel {i : Instr} {s p t : State} (hpc : p.pc = s.pc) (hm : p.mem = s.mem) (hp : KeepsProvider s p)
    (hr : ∀ q ∈ regsRead i, getReg q p = getReg q s) (hc : i.form = .br → p.cond = s.cond)
    (h : exec i s = .next t) : ∃ u, exec i p = .next u ∧ Parallel s p t u :=
  (Parallel.start hpc hm hp).exec i hr hc t h

theorem Parallel.regs_eq {s p t u : State} (h : Parallel s p t u) (hr : p.regs = s.regs) : u.regs = t.regs :=
  Regs.ext_get fun q => (h.reg q).elim id fun ⟨ht, hu⟩ => hu.trans ((getReg_of_regs_eq hr q).trans ht.symm)

theorem Parallel.cond_eq {s p t u : State} (h : Parallel s p t u) (hc : p.cond = s.cond) : u.cond = t.cond :=
  h.cond.elim id fun ⟨ht, hu⟩ => hu.trans (hc.trans ht.symm)

theorem Parallel.run_eq {s p t u : State} (h : Parallel s p t u) (hr : p.run = s.run) : u.run = t.run :=
  h.run.elim id fun ⟨ht, hu⟩ => hu.trans (hr.trans ht.symm)

/-- A word has one flag. -/
theorem reflects_unique {c d : BitVec 3} {v : Word} (hc : reflects c v) (hd : reflects d v) : c = d := by
  unfold reflects at hc hd
  split at hc
  · rw [if_pos ‹_›] at hd; rw [hc, hd]
  · rw [if_neg ‹_›] at hd
    split at hc
    · rw [if_pos ‹_›] at hd; rw [hc, hd]
    · rw [if_neg ‹_›] at hd; rw [hc, hd]

/-- Settles O42: the two runs are parallel, and COND is then the flag of the same register, or was never written. -/
theorem onlyBrReadsTheFlags : Obligations.OnlyBrReadsTheFlags := by
  intro i s t c hi h
  obtain ⟨u, hu, par⟩ := exec_parallel (s := s) (p := { s with cond := c }) rfl rfl ⟨rfl, rfl, rfl, rfl⟩
    (fun _ _ => rfl) (fun e => absurd e hi) h
  have hregs := par.regs_eq rfl
  refine ⟨u, hu, hregs, par.pc, par.mem, par.run_eq rfl, par.provider, ?_⟩
  have ht := flagsFollowOnlyFlagSettingInstructions i s t h
  have hc := flagsFollowOnlyFlagSettingInstructions i _ u hu
  cases hd : flagDest i with
  | none => rw [hd] at hc; rw [if_pos rfl]; exact hc
  | some dr =>
    rw [hd] at ht hc
    rw [if_neg (by simp)]
    exact reflects_unique hc ((getReg_of_regs_eq hregs dr) ▸ ht)

/-- Settles O43: what an instruction makes of RUN is `exec_changes_run`, and runs that differ in RUN are parallel. -/
theorem runChangesOnlyAsListed : Obligations.RunChangesOnlyAsListed := by
  refine ⟨fun _ => rfl, fun i s t h => exec_changes_run h, fun s hs => step_terminal hs, fun i s t r h => ?_⟩
  obtain ⟨u, hu, par⟩ := exec_parallel (s := s) (p := { s with run := r }) rfl rfl ⟨rfl, rfl, rfl, rfl⟩ (fun _ _ => rfl)
    (fun _ => rfl) h
  exact ⟨u, hu, par.regs_eq rfl, par.pc, par.cond_eq rfl, par.mem, par.provider⟩

/-! ### Registers written (10_state.md R22) -/

theorem trapTransfer_keepsRegsBut (v : BitVec 8) (s : State) : KeepsRegsBut [.r7] s (trapTransfer (zext8 v) s) := by
  rw [trapTransfer_eq]
  exact link_keepsRegsBut s

theorem trapWith_keepsRegsBut {c : Config} {v : BitVec 8} {s t : State} (h : trapWith c v s = .next t) :
    KeepsRegsBut (regsWritten (.trap v)) s t := by
  intro q hq
  have hw : regsWritten (.trap v) = if v = 0x20#8 ∨ v = 0x23#8 then [.r7, .r0] else [.r7] := rfl
  have h7 : q ∉ [Reg.r7] := fun h7 => hq (by rw [hw]; split <;> simp_all)
  rcases trapWith_next h with ⟨u, _, hv, use, rfl⟩ | ⟨u, -, use, rfl⟩ | ⟨u, -, use, rfl⟩ | ⟨-, -, rfl⟩ | ⟨-, rfl⟩ |
    ⟨-, rfl⟩
  · rw [hw, if_pos hv] at hq
    have h0 : q ≠ .r0 := fun e => hq (by simp [e])
    rw [getReg_setReg_ne _ _ h0, link_keepsRegsBut u q h7, getReg_of_regs_eq use.core.regs]
  · rw [link_keepsRegsBut u q h7, getReg_of_regs_eq use.core.regs]
  · rw [getReg_takeFault, getReg_of_regs_eq use.core.regs]
  · rfl
  · exact trapTransfer_keepsRegsBut v s q h7
  · exact trapTransfer_keepsRegsBut v s q h7

theorem exec_keepsRegsBut {i : Instr} {s t : State} (h : exec i s = .next t) :
    KeepsRegsBut (regsWritten i) s t := by
  intro q hq
  cases i with
  | trap => exact trapWith_keepsRegsBut h q hq
  | br => rw [exec, execBr_eq] at h; cases h; rfl
  | addReg | addImm | andReg | andImm | not | lea =>
    cases h; exact getReg_writeResult_ne _ s (List.ne_of_not_mem_cons hq)
  | ld | ldr =>
    cases h; exact (getReg_writeResult_ne _ _ (List.ne_of_not_mem_cons hq)).trans (getReg_memRead q _ s)
  | ldi =>
    cases h
    exact (getReg_writeResult_ne _ _ (List.ne_of_not_mem_cons hq)).trans
      ((getReg_memRead q _ _).trans (getReg_memRead q _ s))
  | sti => cases h; exact getReg_memRead q _ s
  | jsr | jsrr => cases h; exact link_keepsRegsBut s q hq
  | st | str | jmp | rti | res => cases h; rfl

/-- Settles O45: an instruction writes no other register, and runs that differ in a register it does not read are
parallel. -/
theorem registersAreUsedAsTabulated : Obligations.RegistersAreUsedAsTabulated := by
  refine ⟨fun i s t h => exec_keepsRegsBut h, fun i s t r v hr h => ?_⟩
  have others : ∀ q, q ≠ r → getReg q (setReg r v s) = getReg q s := fun q hq => getReg_setReg_ne v s hq
  obtain ⟨u, hu, par⟩ := exec_parallel (s := s) (p := setReg r v s) rfl rfl ⟨rfl, rfl, rfl, rfl⟩
    (fun q hq => others q fun e => hr (e ▸ hq)) (fun _ => rfl) h
  refine ⟨u, hu, fun q hq => ?_, par.pc, par.cond_eq rfl, par.mem, par.run_eq rfl, par.provider⟩
  exact (par.reg q).elim id fun ⟨ht, hu⟩ => hu.trans ((others q (List.ne_of_not_mem_cons hq)).trans ht.symm)

end Sys2Proof.Machine
end

section
/-! SUPPORT. What the trap services end in (43_system.md R154 to R159): the equations of GETC, OUT, PUTS and IN where
the provider's calls succeed and where one of them fails, and the claims about the services that follow. -/

namespace Sys2Proof.Machine

/-! ### Calls that succeed -/

/-- The state after `writeOutput` calls that succeeded, one for each byte. -/
def wrote (bs : List Byte) (s : State) : State :=
  { s with outq := s.outq ++ bs, draws := s.draws.drop bs.length }

/-- The provider fails none of its next `n` calls. -/
def CallsSucceed (n : Nat) (s : State) : Prop := s.shut = false ∧ ∀ d ∈ s.draws.take n, d = false

@[simp] theorem wrote_nil (s : State) : wrote [] s = s := by
  rw [wrote, List.append_nil]; rfl

@[simp] theorem wrote_wrote (bs ds : List Byte) (s : State) : wrote ds (wrote bs s) = wrote (bs ++ ds) s := by
  simp [wrote, List.drop_drop]

theorem pushOutput_dropDraw (b : Byte) (s : State) : pushOutput b (dropDraw s) = wrote [b] s := by
  simp [wrote, pushOutput, dropDraw]

theorem CallsSucceed.callFails {n : Nat} {s : State} (h : CallsSucceed (n + 1) s) : callFails s = false := by
  refine callFails_not h.1 ?_
  cases hd : s.draws with
  | nil => rfl
  | cons d ds => exact h.2 d (by simp [hd])

theorem CallsSucceed.drop {n k : Nat} {s t : State} (h : CallsSucceed (k + n) s) (hs : t.shut = s.shut)
    (hd : t.draws = s.draws.drop k) : CallsSucceed n t := by
  refine ⟨hs.trans h.1, fun d hmem => h.2 d ?_⟩
  rw [hd, List.take_drop] at hmem
  exact List.mem_of_mem_drop hmem

theorem CallsSucceed.wrote {n : Nat} {s : State} {bs : List Byte} (h : CallsSucceed (bs.length + n) s) :
    CallsSucceed n (wrote bs s) :=
  h.drop rfl rfl

theorem CallsSucceed.memRead {n : Nat} {s : State} (h : CallsSucceed n s) (a : Word) :
    CallsSucceed n (memRead a s).2 :=
  ⟨(memRead_shut a s).trans h.1, by rw [memRead_draws]; exact h.2⟩

theorem CallsSucceed.mono {n k : Nat} {s : State} (h : CallsSucceed n s) (hk : k ≤ n) : CallsSucceed k s :=
  ⟨h.1, fun d hd => h.2 d ((List.take_subset_take_left _ hk) hd)⟩

theorem callWrite_ok {s : State} (h : callFails s = false) (b : Byte) : callWrite b s = .ok () (wrote [b] s) := by
  rw [callWrite, if_neg (by simp [h]), pushOutput_dropDraw]

theorem callWrite_failed {s : State} (h : callFails s = true) (b : Byte) : callWrite b s = .failed (dropDraw s) := by
  rw [callWrite, if_pos h]

theorem callRead_ok {s : State} {b : Byte} {rest : List Byte} (h : callFails s = false) (hq : s.inq = b :: rest) :
    callRead s = .ok b (dropInput (dropDraw s)) := by
  rw [callRead, if_neg (by simp [h]), hq]

theorem callRead_failed {s : State} (h : callFails s = true) : callRead s = .failed (dropDraw s) := by
  rw [callRead, if_pos h]

/-- The bytes before are written, and then the rest is. -/
theorem callWriteAll_append {bs : List Byte} {s : State} (h : CallsSucceed bs.length s) (ds : List Byte) :
    callWriteAll (bs ++ ds) s = callWriteAll ds (wrote bs s) := by
  induction bs generalizing s with
  | nil => rw [List.nil_append, wrote_nil]
  | cons b bs ih =>
    have hrest : CallsSucceed bs.length (wrote [b] s) := CallsSucceed.wrote (by rwa [Nat.add_comm])
    rw [List.cons_append, callWriteAll, callWrite_ok h.callFails]
    exact (ih hrest).trans (by rw [wrote_wrote]; rfl)

theorem callWriteAll_ok {bs : List Byte} {s : State} (h : CallsSucceed bs.length s) :
    callWriteAll bs s = .ok () (wrote bs s) := by
  have happ := callWriteAll_append h []
  rwa [List.append_nil] at happ

/-- Choices that fail the call after `k` successful ones. -/
theorem callsSucceed_of_chosen {s : State} {k : Nat} {rest : List Bool} (hs : s.shut = false)
    (hd : s.draws = List.replicate k false ++ true :: rest) : CallsSucceed k s ∧ s.draws.drop k = true :: rest := by
  rw [CallsSucceed, hd]
  simp [hs]

/-! ### The PUTS scan (R158) -/

@[simp] theorem memRead_wrote (a : Word) (bs : List Byte) (s : State) :
    memRead a (wrote bs s) = ((memRead a s).1, wrote bs (memRead a s).2) := by
  have hi : hasInput (wrote bs s) = hasInput s := rfl
  simp only [memRead, hi]
  split
  · rfl
  · split
    · split <;> rfl
    · rfl

theorem readsFrom_wrote {a : Word} {s u : State} {cs : List Word} (h : readsFrom a s cs u) (bs : List Byte) :
    readsFrom a (wrote bs s) cs (wrote bs u) := by
  induction cs generalizing a s with
  | nil => cases h; rfl
  | cons c cs ih =>
    rw [readsFrom, memRead_wrote]
    exact ⟨h.1, ih h.2⟩

theorem readsFrom_concat {a : Word} {s u : State} {cs : List Word} {w : Word} (h : readsFrom a s (cs ++ [w]) u) :
    ∃ v, readsFrom a s cs v ∧ memRead (a + BitVec.ofNat 16 cs.length) v = (w, u) := by
  induction cs generalizing a s with
  | nil => exact ⟨s, rfl, by rw [List.length_nil, BitVec.add_zero]; exact Prod.ext h.1 h.2.symm⟩
  | cons c cs ih =>
    obtain ⟨v, hv, hw⟩ := ih h.2
    refine ⟨v, ⟨h.1, hv⟩, ?_⟩
    rw [List.length_cons, Nat.add_comm, BitVec.ofNat_add, ← BitVec.add_assoc]
    exact hw

theorem putsScan_stops {a : Word} {s : State} (h : (memRead a s).1 = 0x0000#16) (fuel : Nat) :
    putsScan (fuel + 1) a s = .finished none (memRead a s).2 := by
  simp only [putsScan, if_pos h]

theorem putsScan_fails {a : Word} {s : State} (h : (memRead a s).1 ≠ 0x0000#16)
    (hf : callFails (memRead a s).2 = true) (fuel : Nat) :
    putsScan (fuel + 1) a s = .failed (dropDraw (memRead a s).2) := by
  simp only [putsScan, if_neg h, callWrite_failed hf]

theorem putsScan_goes_on {a : Word} {s : State} (h : (memRead a s).1 ≠ 0x0000#16)
    (hf : callFails (memRead a s).2 = false) (fuel : Nat) :
    putsScan (fuel + 1) a s = putsScan fuel (a + 1#16) (wrote [lowByte (memRead a s).1] (memRead a s).2) := by
  simp only [putsScan, if_neg h, callWrite_ok hf]

/-- The scan over words that are not zero, none of whose calls fails. -/
theorem putsScan_readsFrom {a : Word} {s u : State} {cs : List Word} (h : readsFrom a s cs u)
    (hz : ∀ x ∈ cs, x ≠ 0x0000#16) (hc : CallsSucceed cs.length s) (fuel : Nat) :
    putsScan (cs.length + fuel) a s = putsScan fuel (a + BitVec.ofNat 16 cs.length) (wrote (cs.map lowByte) u) := by
  induction cs generalizing a s u with
  | nil => cases h; simp
  | cons c cs ih =>
    obtain ⟨rfl, hrest⟩ := h
    have hfirst : CallsSucceed (cs.length + 1) (memRead a s).2 := hc.memRead a
    have hnext : CallsSucceed cs.length (wrote [lowByte (memRead a s).1] (memRead a s).2) :=
      CallsSucceed.wrote (by rwa [Nat.add_comm])
    rw [List.length_cons, Nat.add_right_comm,
      putsScan_goes_on (hz _ List.mem_cons_self) hfirst.callFails,
      ih (readsFrom_wrote hrest _) (fun x hx => hz x (List.mem_cons_of_mem _ hx)) hnext, wrote_wrote,
      BitVec.add_assoc, ← BitVec.ofNat_add, Nat.add_comm 1]
    rfl

theorem putsFuel_eq_succ {a : Word} {s u : State} {cs : List Word} (h : readsFrom a s cs u)
    (hz : ∀ x ∈ cs, x ≠ 0x0000#16) : ∃ fuel, putsFuel s = cs.length + (fuel + 1) :=
  Nat.exists_eq_add_of_lt (readsFrom_fuel h hz)

/-- PUTS whose reads return the words `cs`, not zero, and then a zero word. -/
theorem servicePuts_finishes {s u : State} {cs : List Word} (h : readsFrom (getReg .r0 s) s (cs ++ [0x0000#16]) u)
    (hz : ∀ x ∈ cs, x ≠ 0x0000#16) (hc : CallsSucceed cs.length s) :
    servicePuts s = .finished none (wrote (cs.map lowByte) u) := by
  obtain ⟨v, hv, hlast⟩ := readsFrom_concat h
  obtain ⟨fuel, hfuel⟩ := putsFuel_eq_succ hv hz
  have hread : memRead (getReg .r0 s + BitVec.ofNat 16 cs.length) (wrote (cs.map lowByte) v) =
      (0x0000#16, wrote (cs.map lowByte) u) := by rw [memRead_wrote, hlast]
  rw [servicePuts, hfuel, putsScan_readsFrom hv hz hc, putsScan_stops (by rw [hread]), hread]

/-- PUTS whose reads return the words `cs` and `w`, not zero, and whose call for the byte of `w` fails. -/
theorem servicePuts_fails {s u : State} {cs : List Word} {w : Word} (h : readsFrom (getReg .r0 s) s (cs ++ [w]) u)
    (hz : ∀ x ∈ cs ++ [w], x ≠ 0x0000#16) (hc : CallsSucceed cs.length s)
    (hf : callFails (wrote (cs.map lowByte) u) = true) :
    servicePuts s = .failed (dropDraw (wrote (cs.map lowByte) u)) := by
  obtain ⟨v, hv, hlast⟩ := readsFrom_concat h
  have hz' : ∀ x ∈ cs, x ≠ 0x0000#16 := fun x hx => hz x (List.mem_append_left _ hx)
  have hw : w ≠ 0x0000#16 := hz w (by simp)
  obtain ⟨fuel, hfuel⟩ := putsFuel_eq_succ hv hz'
  have hread : memRead (getReg .r0 s + BitVec.ofNat 16 cs.length) (wrote (cs.map lowByte) v) =
      (w, wrote (cs.map lowByte) u) := by rw [memRead_wrote, hlast]
  rw [servicePuts, hfuel, putsScan_readsFrom hv hz' hc, putsScan_fails (by rwa [hread]) (by rwa [hread]), hread]

/-- PUTS of a string whose first word reads as zero makes no call. -/
theorem servicePuts_empty {s : State} (h : (memRead (getReg .r0 s) s).1 = 0x0000#16) :
    servicePuts s = .finished none (memRead (getReg .r0 s) s).2 := by
  obtain ⟨fuel, hfuel⟩ := putsFuel_eq_succ (s := s) (cs := []) (a := getReg .r0 s) rfl (by simp)
  rw [servicePuts, hfuel]
  exact putsScan_stops h _

/-- The scan runs out of reads only if every one of them returns a word that is not zero. -/
theorem readsFrom_of_unended {fuel : Nat} {a : Word} {s : State} {bs : List Byte}
    (h : putsScan fuel a (wrote bs s) = .unended) :
    ∃ cs u, readsFrom a s cs u ∧ (∀ x ∈ cs, x ≠ 0x0000#16) ∧ cs.length = fuel := by
  induction fuel generalizing a s bs with
  | zero => exact ⟨[], s, rfl, by simp, rfl⟩
  | succ fuel ih =>
    rcases putsScan_succ fuel a (wrote bs s) with ⟨-, e⟩ | ⟨-, -, e⟩ | ⟨hz, -, e⟩ <;> rw [e] at h
    · cases h
    · cases h
    · rw [pushOutput_dropDraw, memRead_wrote, wrote_wrote] at h
      rw [memRead_wrote] at hz
      obtain ⟨cs, u, hr, hzs, rfl⟩ := ih h
      exact ⟨_ :: cs, u, ⟨rfl, hr⟩, List.forall_mem_cons.mpr ⟨hz, hzs⟩, rfl⟩

theorem servicePuts_ne_unended (s : State) : servicePuts s ≠ .unended := by
  intro h
  rw [servicePuts, ← wrote_nil s] at h
  obtain ⟨cs, u, hr, hz, hlen⟩ := readsFrom_of_unended h
  rw [wrote_nil] at hlen
  exact absurd (readsFrom_fuel hr hz) (by omega)

/-! ### GETC, OUT and IN (R156, R157, R159) -/

theorem not_awaitsInput_of_shut {s : State} (h : s.shut = true) : awaitsInput s = false := by
  rw [awaitsInput, h]; rfl

theorem not_awaitsInput_of_inq {s : State} (h : s.inq ≠ []) : awaitsInput s = false := by
  simp [awaitsInput, h]

theorem serviceGetc_finishes {s : State} {b : Byte} {rest : List Byte} (hc : CallsSucceed 1 s)
    (hq : s.inq = b :: rest) : serviceGetc s = .finished (some b) (dropInput (dropDraw s)) := by
  rw [serviceGetc, not_awaitsInput_of_inq (by simp [hq]), callRead_ok hc.callFails hq]
  rfl

theorem serviceGetc_fails {s : State} (ha : awaitsInput s = false) (hf : callFails s = true) :
    serviceGetc s = .failed (dropDraw s) := by
  rw [serviceGetc, ha, callRead_failed hf]
  rfl

theorem serviceOut_finishes {s : State} (hc : CallsSucceed 1 s) :
    serviceOut s = .finished none (wrote [lowByte (getReg .r0 s)] s) := by
  rw [serviceOut, callWrite_ok hc.callFails]

theorem serviceOut_fails {s : State} (hf : callFails s = true) : serviceOut s = .failed (dropDraw s) := by
  rw [serviceOut, callWrite_failed hf]

/-- The bytes IN writes after the character (decision D14). -/
def echoed (c : Config) (b : Byte) : List Byte := if c.inEcho then [b] else []

theorem serviceIn_prompt_fails {c : Config} {s t : State} (ha : awaitsInput s = false)
    (hp : callWriteAll c.inPrompt s = .failed t) : serviceIn c s = .failed t := by
  rw [serviceIn, ha, hp]
  rfl

theorem serviceIn_read_fails {c : Config} {s t u : State} (ha : awaitsInput s = false)
    (hp : callWriteAll c.inPrompt s = .ok () u) (hr : callRead u = .failed t) : serviceIn c s = .failed t := by
  simp only [serviceIn, ha, hp, hr, Bool.false_eq_true, if_false]

theorem serviceIn_echo_fails {c : Config} {s t u v : State} {b : Byte} (ha : awaitsInput s = false)
    (hp : callWriteAll c.inPrompt s = .ok () u) (hr : callRead u = .ok b v) (he : c.inEcho = true)
    (hw : callWrite b v = .failed t) : serviceIn c s = .failed t := by
  simp only [serviceIn, ha, hp, hr, he, hw, Bool.false_eq_true, if_false, if_true]

/-- IN with a character pending, none of whose calls fails: its prompt, the read, and its echo. -/
theorem serviceIn_finishes {c : Config} {s : State} {b : Byte} {rest : List Byte} (hq : s.inq = b :: rest)
    (hc : CallsSucceed (c.inPrompt.length + 1 + (echoed c b).length) s) :
    serviceIn c s = .finished (some b) (wrote (echoed c b) (dropInput (dropDraw (wrote c.inPrompt s)))) := by
  have ha := not_awaitsInput_of_inq (s := s) (by simp [hq])
  have hp : callWriteAll c.inPrompt s = .ok () (wrote c.inPrompt s) := callWriteAll_ok (hc.mono (by omega))
  have hread : CallsSucceed (1 + (echoed c b).length) (wrote c.inPrompt s) :=
    CallsSucceed.wrote (by rwa [← Nat.add_assoc])
  have hr : callRead (wrote c.inPrompt s) = .ok b (dropInput (dropDraw (wrote c.inPrompt s))) :=
    callRead_ok (hread.mono (Nat.le_add_right _ _)).callFails hq
  have hecho : CallsSucceed (echoed c b).length (dropInput (dropDraw (wrote c.inPrompt s))) :=
    hread.drop rfl List.drop_one.symm
  cases he : c.inEcho with
  | false => simp [serviceIn, ha, hp, hr, he, echoed]
  | true =>
    rw [echoed, if_pos he] at hecho ⊢
    simp only [serviceIn, ha, hp, hr, he, callWrite_ok hecho.callFails, Bool.false_eq_true, if_false, if_true]

/-! ### Every service ends (log entry 7) -/

theorem endService_answers {s : State} {r : ServiceResult} (h : r ≠ .unended) : ∃ t, endService s r = .next t := by
  cases r with
  | finished char t => cases char <;> exact ⟨_, rfl⟩
  | failed t => exact ⟨_, rfl⟩
  | waiting => exact ⟨_, rfl⟩
  | unended => exact absurd rfl h

theorem serviceGetc_ne_unended (s : State) : serviceGetc s ≠ .unended := by
  unfold serviceGetc
  repeat' split
  all_goals simp

theorem serviceOut_ne_unended (s : State) : serviceOut s ≠ .unended := by
  unfold serviceOut
  split <;> simp

theorem serviceIn_ne_unended (c : Config) (s : State) : serviceIn c s ≠ .unended := by
  unfold serviceIn
  repeat' split
  all_goals simp

theorem trapWith_answers (c : Config) (v : BitVec 8) (s : State) : ∃ t, trapWith c v s = .next t := by
  by_cases h0 : v = 0x20#8
  · subst h0; rw [trapWith_getc]; exact endService_answers (serviceGetc_ne_unended s)
  by_cases h1 : v = 0x21#8
  · subst h1; rw [trapWith_out]; exact endService_answers (serviceOut_ne_unended s)
  by_cases h2 : v = 0x22#8
  · subst h2; rw [trapWith_puts]; exact endService_answers (servicePuts_ne_unended s)
  by_cases h3 : v = 0x23#8
  · subst h3; rw [trapWith_in]; exact endService_answers (serviceIn_ne_unended c s)
  by_cases h5 : v = 0x25#8
  · subst h5; exact ⟨_, trapWith_halt c s⟩
  exact ⟨_, trapWith_other c h0 h1 h2 h3 h5 s⟩

theorem execWith_answers (c : Config) (i : Instr) (s : State) : ∃ t, execWith c i s = .next t := by
  cases i with
  | trap v => exact trapWith_answers c v s
  | _ => exact ⟨_, rfl⟩

theorem stepWith_answers (c : Config) (s : State) : ∃ t, stepWith c s = .next t := by
  rw [stepWith]
  split
  · exact execWith_answers c _ _
  · exact ⟨s, rfl⟩

/-- Settles O11: only the PUTS scan could end outside `next`, and its bound is never reached. -/
theorem everyInstructionAnswersANextState : Obligations.EveryInstructionAnswersANextState := by
  refine ⟨fun i s => ?_, fun s => ?_, execWith_answers, stepWith_answers⟩
  · rw [← execWith_standard]
    exact execWith_answers .standard i s
  · rw [StepSafe, ← stepWith_standard]
    exact stepWith_answers .standard s

/-! ### TRAP with the vectors of HALT and the services, under the default parameters -/

theorem exec_getc (s : State) : exec (.trap 0x20#8) s = endService s (serviceGetc s) := trapWith_getc .standard s

theorem exec_out (s : State) : exec (.trap 0x21#8) s = endService s (serviceOut s) := trapWith_out .standard s

theorem exec_puts (s : State) : exec (.trap 0x22#8) s = endService s (servicePuts s) := trapWith_puts .standard s

theorem execWith_in (c : Config) (s : State) : execWith c (.trap 0x23#8) s = endService s (serviceIn c s) :=
  trapWith_in c s

theorem exec_halt (s : State) : exec (.trap 0x25#8) s = .next (halt (setPc (memGet s.mem 0x25) (link s))) := by
  show trapWith .standard 0x25#8 s = _
  rw [trapWith_halt, trapTransfer_eq, toNat_zext8]
  rfl

/-! ### Services that complete (R154 to R159) -/

@[simp] theorem lowByte_zext8 (b : BitVec 8) : lowByte (zext8 b) = b := by
  rw [lowByte, zext8, BitVec.setWidth_setWidth_of_le _ (by decide), BitVec.setWidth_eq]

theorem extractLsb'_eq_lowByte : (fun w : Word => w.extractLsb' 0 8) = lowByte :=
  funext fun _ => (BitVec.setWidth_eq_extractLsb' (by decide)).symm

/-- Settles O33: HALT is the transfer of TRAP, and then RUN. -/
theorem haltTransfersAndHalts : Obligations.HaltTransfersAndHalts :=
  fun s => ⟨_, exec_halt s, rfl, rfl, rfl, link_keepsRegsBut s, rfl, fun _ => rfl, rfl, rfl, rfl, rfl⟩

/-- What GETC and IN make of the registers once they have the character. -/
theorem keepsRegsBut_setReg_link {s u : State} (hr : u.regs = s.regs) (v : Word) :
    KeepsRegsBut [.r0, .r7] s (setReg .r0 v (link u)) := by
  intro q hq
  simp only [List.mem_cons, List.not_mem_nil, or_false, not_or] at hq
  rw [getReg_setReg_ne v _ hq.1, getReg_link_ne _ hq.2, getReg_of_regs_eq hr]

theorem callsSucceed_one {s : State} (hs : s.shut = false) (hd : s.draws.headD false = false) : CallsSucceed 1 s :=
  ⟨hs, fun d hmem => by cases h : s.draws <;> simp_all⟩

/-- Settles O34: GETC makes one call, the read, and ends with R7 and R0 written. -/
theorem getcDeliversTheCharacter : Obligations.GetcDeliversTheCharacter := by
  intro s c rest hs hq hd
  have hserv := serviceGetc_finishes (callsSucceed_one hs hd) hq
  refine ⟨_, (exec_getc s).trans (congrArg (endService s) hserv), ?_, rfl, keepsRegsBut_setReg_link rfl _, rfl, rfl,
    rfl, fun _ => rfl, congrArg List.tail hq, rfl, hs, rfl⟩
  rw [getReg_setReg_same, toNat_zext8]

/-- Settles O35: OUT makes one call, the write. -/
theorem outWritesTheLowByte : Obligations.OutWritesTheLowByte := by
  intro s hs hd
  have hserv := serviceOut_finishes (callsSucceed_one hs hd)
  refine ⟨_, (exec_out s).trans (congrArg (endService s) hserv), ?_, rfl, link_keepsRegsBut s, rfl, rfl, rfl,
    fun _ => rfl, rfl, hs, List.drop_one⟩
  rw [← extractLsb'_eq_lowByte]
  rfl

/-- PUTS, whatever its reads go through: it writes the low bytes of the words read, and leaves INQ as the reads do. -/
theorem exec_puts_completes {s u : State} {cs : List Word} (hs : s.shut = false)
    (h : readsFrom (getReg .r0 s) s (cs ++ [0x0000#16]) u) (hz : ∀ w ∈ cs, w ≠ 0x0000#16)
    (hd : ∀ d ∈ s.draws.take cs.length, d = false) :
    ∃ t, exec (.trap 0x22#8) s = .next t ∧ t.outq = s.outq ++ cs.map (fun w => w.extractLsb' 0 8) ∧ t.inq = u.inq ∧
      getReg .r7 t = s.pc ∧ KeepsRegsBut [.r7] s t ∧ t.pc = s.pc ∧ t.cond = s.cond ∧ t.run = s.run ∧
      KeepsMemory s t ∧ t.shut = false ∧ t.draws = s.draws.drop cs.length := by
  have hserv := servicePuts_finishes h hz ⟨hs, hd⟩
  rw [readsFrom_state h] at hserv
  refine ⟨_, (exec_puts s).trans (congrArg (endService s) hserv), ?_, rfl, rfl, link_keepsRegsBut s, rfl, rfl, rfl,
    fun _ => rfl, hs, congrArg (List.drop · _) (List.length_map lowByte)⟩
  rw [extractLsb'_eq_lowByte]
  rfl

theorem ne_zero_of_stringAt {m : Memory} {a : Word} {cs : List Word} (h : stringAt m a cs) :
    ∀ w ∈ cs, w ≠ 0x0000#16 := by
  induction cs generalizing a with
  | nil => simp
  | cons c cs ih =>
    obtain ⟨-, -, hc, hrest⟩ := h
    exact List.forall_mem_cons.mpr ⟨hc, ih hrest⟩

/-- Settles O36: the reads of a string in ordinary memory leave the state as it was. -/
theorem putsWritesTheString : Obligations.PutsWritesTheString := by
  intro s cs hs hstr hd
  obtain ⟨t, hnext, hout, hin, h7, hregs, hpc, hcond, hrun, hmem, hshut, hdraws⟩ :=
    exec_puts_completes hs (readsFrom_stringAt hstr) (ne_zero_of_stringAt hstr) hd
  exact ⟨t, hnext, hout, h7, hregs, hpc, hcond, hrun, hmem, hin, hshut, hdraws⟩

theorem length_echoed (c : Config) (b : Byte) : (echoed c b).length = if c.inEcho then 1 else 0 := by
  rw [echoed]
  split <;> rfl

/-- Settles O37: the prompt, the read and the echo succeed one after the other. -/
theorem inPromptsReadsAndEchoes : Obligations.InPromptsReadsAndEchoes := by
  refine ⟨fun s => (execWith_standard _ s).symm, fun c s ch rest hs hq hd => ?_⟩
  rw [← length_echoed c ch] at hd ⊢
  have hserv := serviceIn_finishes hq ⟨hs, hd⟩
  refine ⟨_, (execWith_in c s).trans (congrArg (endService s) hserv), ?_, rfl, keepsRegsBut_setReg_link rfl _, rfl, rfl,
    rfl, fun _ => rfl, congrArg List.tail hq, rfl, hs, ?_⟩
  · rw [getReg_setReg_same, toNat_zext8]
  · show ((s.draws.drop _).tail).drop _ = _
    rw [List.tail_drop, List.drop_drop]

/-! ### Services that fail or wait (R155, R172, R192) -/

theorem wrote_sameCore (bs : List Byte) (s : State) : SameCore s (wrote bs s) := ⟨rfl, rfl, rfl, rfl, rfl, rfl⟩

theorem dropDraw_sameCore (s : State) : SameCore s (dropDraw s) := ⟨rfl, rfl, rfl, rfl, rfl, rfl⟩

theorem readsFrom_sameCore {a : Word} {s u : State} {cs : List Word} (h : readsFrom a s cs u) : SameCore s u := by
  rw [readsFrom_state h]
  exact ⟨rfl, rfl, rfl, rfl, rfl, rfl⟩

theorem readsFrom_draws {a : Word} {s u : State} {cs : List Word} (h : readsFrom a s cs u) : u.draws = s.draws := by
  rw [readsFrom_state h]

theorem readsFrom_outq {a : Word} {s u : State} {cs : List Word} (h : readsFrom a s cs u) : u.outq = s.outq := by
  rw [readsFrom_state h]

/-- Fault entry after a service that failed and left the core alone. -/
theorem faults_of_failed {o : Host.Outcome State Fault Refusal} {s u : State} (h : SameCore s u)
    (ho : o = endService s (.failed u)) : Faults o s .ioProviderError (takeFault .ioProviderError u) :=
  ⟨ho, rfl, h.regs, h.cond, h.pc, fun a => congrArg (memGet · a) h.mem⟩

/-! ### With the provider shut down (R155; decisions D16, D19, D21) -/

theorem memRead_state_of_shut (a : Word) {s : State} (h : s.shut = true) : (memRead a s).2 = s := by
  rcases memRead_state a s with e | ⟨-, e, -⟩
  · exact e
  · simp [hasInput, h] at e

theorem faults_of_first_call {o : Host.Outcome State Fault Refusal} {s : State} (hs : s.shut = true)
    (ho : o = endService s (.failed (dropDraw s))) :
    ∃ t, Faults o s .ioProviderError t ∧ t.inq = s.inq ∧ t.outq = s.outq ∧ t.shut = true :=
  ⟨_, faults_of_failed (dropDraw_sameCore s) ho, rfl, rfl, hs⟩

theorem serviceIn_shut (c : Config) {s : State} (hs : s.shut = true) : serviceIn c s = .failed (dropDraw s) := by
  have ha := not_awaitsInput_of_shut hs
  cases hp : c.inPrompt with
  | nil => exact serviceIn_read_fails ha (by rw [hp]; rfl) (callRead_failed (callFails_shut hs))
  | cons b bs =>
    exact serviceIn_prompt_fails ha (by rw [hp, callWriteAll, callWrite_failed (callFails_shut hs)])

theorem servicePuts_shut {s : State} (hs : s.shut = true) (h : (memRead (getReg .r0 s) s).1 ≠ 0x0000#16) :
    servicePuts s = .failed (dropDraw s) := by
  have hread := memRead_state_of_shut (getReg .r0 s) hs
  obtain ⟨fuel, hfuel⟩ := putsFuel_eq_succ (s := s) (cs := []) (a := getReg .r0 s) rfl (by simp)
  have hf : callFails (memRead (getReg .r0 s) s).2 = true := by rw [hread]; exact callFails_shut hs
  rw [servicePuts, hfuel, List.length_nil, Nat.zero_add, putsScan_fails h hf, hread]

theorem execWith_in_shut (c : Config) {s : State} (hs : s.shut = true) :
    ∃ t, Faults (execWith c (.trap 0x23#8) s) s .ioProviderError t ∧ t.inq = s.inq ∧ t.outq = s.outq ∧
      t.shut = true :=
  faults_of_first_call hs (by rw [execWith_in, serviceIn_shut c hs])

/-- Settles O38: the first call of a service fails, and only PUTS of an empty string makes none. -/
theorem shutDownProviderFaultsServices : Obligations.ShutDownProviderFaultsServices := by
  refine ⟨fun v s hv hs => ?_, fun c s hs => execWith_in_shut c hs, fun s hs hw => ?_, fun s hs hw => ?_⟩
  · have hf := callFails_shut hs
    simp only [List.mem_cons, List.not_mem_nil, or_false] at hv
    rcases hv with rfl | rfl | rfl
    · exact faults_of_first_call hs (by rw [exec_getc, serviceGetc_fails (not_awaitsInput_of_shut hs) hf])
    · exact faults_of_first_call hs (by rw [exec_out, serviceOut_fails hf])
    · rw [← execWith_standard]
      exact execWith_in_shut .standard hs
  · exact faults_of_first_call hs (by rw [exec_puts, servicePuts_shut hs hw])
  · rw [exec_puts, servicePuts_empty hw, memRead_state_of_shut _ hs]
    exact transfers_setPc_link s.pc s

/-! ### A call that the provider chooses to fail (decisions D16, D19; log entries 4 and 5) -/

theorem callWriteAll_fails {bs : List Byte} {s : State} {k : Nat} {rest : List Bool} (hs : s.shut = false)
    (hk : k < bs.length) (hd : s.draws = List.replicate k false ++ true :: rest) :
    callWriteAll bs s = .failed (dropDraw (wrote (bs.take k) s)) := by
  obtain ⟨hc, hdrop⟩ := callsSucceed_of_chosen hs hd
  have hlen : (bs.take k).length = k := List.length_take_of_le hk.le
  have hf : callFails (wrote (bs.take k) s) = true := callFails_chosen (by rw [wrote, hlen]; exact hdrop)
  calc callWriteAll bs s = callWriteAll (bs.take k ++ bs[k] :: bs.drop (k + 1)) s := by
        rw [List.cons_getElem_drop_succ, List.take_append_drop]
    _ = _ := by rw [callWriteAll_append (by rwa [hlen]), callWriteAll, callWrite_failed hf]

theorem exec_puts_fails {s u : State} {cs : List Word} {w : Word} {rest : List Bool} (hs : s.shut = false)
    (h : readsFrom (getReg .r0 s) s (cs ++ [w]) u) (hz : ∀ x ∈ cs ++ [w], x ≠ 0x0000#16)
    (hd : s.draws = List.replicate cs.length false ++ true :: rest) :
    ∃ t, Faults (exec (.trap 0x22#8) s) s .ioProviderError t ∧ t.inq = u.inq ∧
      t.outq = s.outq ++ cs.map (fun w => w.extractLsb' 0 8) ∧ t.draws = rest := by
  obtain ⟨hc, hdrop⟩ := callsSucceed_of_chosen hs hd
  have hdraws : (wrote (cs.map lowByte) u).draws = true :: rest := by
    rw [wrote, readsFrom_draws h, List.length_map]
    exact hdrop
  have hserv := servicePuts_fails h hz hc (callFails_chosen hdraws)
  have hcore := (readsFrom_sameCore h).trans' ((wrote_sameCore (cs.map lowByte) u).trans' (dropDraw_sameCore _))
  refine ⟨_, faults_of_failed hcore (by rw [exec_puts, hserv]), rfl, ?_, congrArg List.tail hdraws⟩
  rw [extractLsb'_eq_lowByte, ← readsFrom_outq h]
  rfl

/-- A string's first words. -/
theorem wordsAt_take_of_stringAt {m : Memory} {a : Word} {cs : List Word} (h : stringAt m a cs) (k : Nat) :
    wordsAt m a (cs.take k) := by
  induction k generalizing a cs with
  | zero => trivial
  | succ k ih =>
    cases cs with
    | nil => trivial
    | cons c cs =>
      obtain ⟨ha, hc, hz, hrest⟩ := h
      exact ⟨ha, hc, hz, ih hrest⟩

theorem execWith_in_read_fails (c : Config) {s : State} {rest : List Bool} (hs : s.shut = false) (hq : s.inq ≠ [])
    (hd : s.draws = List.replicate c.inPrompt.length false ++ true :: rest) :
    ∃ t, Faults (execWith c (.trap 0x23#8) s) s .ioProviderError t ∧ t.inq = s.inq ∧
      t.outq = s.outq ++ c.inPrompt ∧ t.draws = rest := by
  obtain ⟨hc, hdrop⟩ := callsSucceed_of_chosen hs hd
  have hserv := serviceIn_read_fails (not_awaitsInput_of_inq hq) (callWriteAll_ok hc)
    (callRead_failed (callFails_chosen hdrop))
  exact ⟨_, faults_of_failed ((wrote_sameCore _ s).trans' (dropDraw_sameCore _)) (by rw [execWith_in, hserv]), rfl, rfl,
    congrArg List.tail hdrop⟩

/-- Settles O39: the calls before the failing one succeed, and the service ends with what they did. -/
theorem chosenFailuresFaultServices : Obligations.ChosenFailuresFaultServices := by
  refine ⟨fun s rest hs hd => ?_, fun v s rest hv hs hq hd => ?_, fun s cs k rest hs hstr hk hd => ?_,
    fun s u cs w rest hs h hz hd => exec_puts_fails hs h hz hd, fun c s k rest hs hq hk hd => ?_,
    fun c s rest hs hq hd => execWith_in_read_fails c hs hq hd, fun c s ch chars rest he hs hq hd => ?_⟩
  · have hserv := serviceOut_fails (callFails_chosen hd)
    exact ⟨_, faults_of_failed (dropDraw_sameCore s) (by rw [exec_out, hserv]), rfl, rfl, congrArg List.tail hd⟩
  · rcases List.mem_pair.mp hv with rfl | rfl
    · have hserv := serviceGetc_fails (not_awaitsInput_of_inq hq) (callFails_chosen hd)
      exact ⟨_, faults_of_failed (dropDraw_sameCore s) (by rw [exec_getc, hserv]), rfl, rfl, congrArg List.tail hd⟩
    · have hread := execWith_in_read_fails .standard hs hq hd
      rwa [execWith_standard, show Config.standard.inPrompt = [] from rfl, List.append_nil] at hread
  · have hlen : (cs.take k).length = k := List.length_take_of_le hk.le
    have htake : cs.take k ++ [cs[k]] = cs.take (k + 1) := List.take_append_getElem hk
    refine exec_puts_fails (w := cs[k]) hs ?_ ?_ (by rwa [hlen])
    · rw [htake]
      exact readsFrom_wordsAt (wordsAt_take_of_stringAt hstr (k + 1))
    · rw [htake]
      exact fun x hx => ne_zero_of_stringAt hstr x (List.mem_of_mem_take hx)
  · have hserv := serviceIn_prompt_fails (not_awaitsInput_of_inq hq) (callWriteAll_fails hs hk hd)
    have hdrop := (callsSucceed_of_chosen hs hd).2
    have hcore := (wrote_sameCore (c.inPrompt.take k) s).trans' (dropDraw_sameCore _)
    refine ⟨_, faults_of_failed hcore (by rw [execWith_in, hserv]), rfl, rfl, ?_⟩
    show (s.draws.drop (c.inPrompt.take k).length).tail = rest
    rw [List.length_take_of_le hk.le, hdrop, List.tail_cons]
  · obtain ⟨hc, hdrop⟩ := callsSucceed_of_chosen hs hd
    have hq' : s.inq ≠ [] := by simp [hq]
    have hread : CallsSucceed (0 + 1) (wrote c.inPrompt s) := CallsSucceed.wrote hc
    have hdraws : (dropInput (dropDraw (wrote c.inPrompt s))).draws = true :: rest := by
      show (s.draws.drop c.inPrompt.length).tail = _
      rwa [List.tail_drop]
    have hserv := serviceIn_echo_fails (not_awaitsInput_of_inq hq') (callWriteAll_ok (hc.mono (Nat.le_succ _)))
      (callRead_ok hread.callFails hq) he (callWrite_failed (callFails_chosen hdraws) ch)
    have hcore : SameCore s (dropDraw (dropInput (dropDraw (wrote c.inPrompt s)))) := ⟨rfl, rfl, rfl, rfl, rfl, rfl⟩
    exact ⟨_, faults_of_failed hcore (by rw [execWith_in, hserv]), congrArg List.tail hq, rfl,
      congrArg List.tail hdraws⟩

/-! ### GETC and IN that wait (R155, R192; decision D21) -/

/-- Settles O40: the wait is `suspend`, which takes back the increment of the fetch. -/
theorem getcAndInWaitForInput : Obligations.GetcAndInWaitForInput := by
  have waits : ∀ (c : Config) (v : BitVec 8) (s : State), v ∈ [0x20#8, 0x23#8] → s.shut = false → s.inq = [] →
      execWith c (.trap v) s = .next (suspend s) := fun c v s hv hs hq =>
    trapWith_waits c hv (awaitsInput_iff.mpr ⟨hs, hq⟩)
  have waits' : ∀ (v : BitVec 8) (s : State), v ∈ [0x20#8, 0x23#8] → s.shut = false → s.inq = [] →
      exec (.trap v) s = .next (suspend s) := fun v s hv hs hq => execWith_standard _ s ▸ waits .standard v s hv hs hq
  refine ⟨waits', waits, fun v s hv hrun hs hq hw => ?_⟩
  have hfetch : afterFetch s = setPc (s.pc + 1#16) s := by rw [afterFetch, memRead_state_of_empty _ hq]
  have hwait := waits' v (setPc (s.pc + 1#16) s) hv hs hq
  rw [step_running hrun, hw, hfetch, hwait, suspend, setPc_pc, BitVec.add_sub_cancel]
  rfl

/-! ### PUTS through the keyboard addresses (R158; decision D24) -/

/-- The reads of a scan that passes 0xFE00 with a character pending: the status word, the word between the keyboard
addresses, and the character, which they consume. -/
theorem readsFrom_keyboard {s : State} {c : Byte} {rest : List Byte} (hs : s.shut = false) (hq : s.inq = c :: rest) :
    readsFrom kbsr s [0x8000#16, memGet s.mem 0xFE01, zext8 c] { s with inq := rest } := by
  have hstatus : memRead kbsr s = (0x8000#16, s) := memRead_kbsr_pending (by simp [hq]) hs
  have hmid : memRead (kbsr + 1#16) s = (memGet s.mem 0xFE01, s) := memRead_ordinary (by decide) s
  have hdata : memRead (kbsr + 1#16 + 1#16) s = (zext8 c, { s with inq := rest }) := memRead_kbdr_pending hs hq
  simp only [readsFrom, hstatus, hmid, hdata, and_self]

theorem zext8_ne_zero {c : Byte} (h : c ≠ 0x00#8) : zext8 c ≠ 0x0000#16 :=
  fun e => h ((zext8_inj (k := 0x00#8)).mp e)

theorem ne_zero_of_wordsAt {m : Memory} {a : Word} {cs : List Word} (h : wordsAt m a cs) :
    ∀ w ∈ cs, w ≠ 0x0000#16 := by
  induction cs generalizing a with
  | nil => simp
  | cons c cs ih =>
    obtain ⟨-, -, hc, hrest⟩ := h
    exact List.forall_mem_cons.mpr ⟨hc, ih hrest⟩

/-- A first word that reads as zero ends PUTS without a call. -/
theorem exec_puts_empty {s u : State} (h : memRead (getReg .r0 s) s = (0x0000#16, u)) :
    exec (.trap 0x22#8) s = .next (link u) := by
  rw [exec_puts, servicePuts_empty (by rw [h]), h]
  rfl

/-- A scan from ordinary memory over both keyboard addresses with a character pending. -/
theorem readsFrom_over_keyboard {s : State} {a : Word} {before after : List Word} {c : Byte} {rest : List Byte}
    (hs : s.shut = false) (hq : s.inq = c :: rest) (hbefore : wordsAt s.mem a before)
    (hend : a + BitVec.ofNat 16 before.length = kbsr) (hafter : stringAt s.mem (kbdr + 1#16) after) :
    readsFrom a s (before ++ [0x8000#16, memGet s.mem 0xFE01, zext8 c] ++ after ++ [0x0000#16])
      { s with inq := rest } := by
  rw [List.append_assoc, List.append_assoc]
  refine readsFrom_append (readsFrom_wordsAt hbefore) ?_
  rw [hend]
  exact readsFrom_append (readsFrom_keyboard hs hq) (readsFrom_stringAt (s := { s with inq := rest }) hafter)

/-- Settles O54: each clause says what the reads return, and the general clause what PUTS makes of it. -/
theorem putsReadsThroughTheKeyboard : Obligations.PutsReadsThroughTheKeyboard := by
  refine ⟨fun s u cs hs h hz hd => exec_puts_completes hs h hz hd, fun s cs hs hq hw hend hd => ?_,
    fun s before after c rest hs hq hc hw hend hmid hstr hd => ?_, fun s rest hs hr hq => ?_, fun s hr hno => ?_⟩
  · have hstop : readsFrom kbsr s [0x0000#16] s := by
      have hread := memRead_kbsr_empty (.inl hq)
      exact ⟨congrArg Prod.fst hread, (congrArg Prod.snd hread).symm⟩
    obtain ⟨t, hnext, hout, hin, -, -, -, -, hrun, -⟩ := exec_puts_completes hs
      (readsFrom_append (readsFrom_wordsAt hw) (by rw [hend]; exact hstop)) (ne_zero_of_wordsAt hw) hd
    exact ⟨t, hnext, hrun, hin.trans hq, hout⟩
  · have hz : ∀ w ∈ before ++ [0x8000#16, memGet s.mem 0xFE01, zext8 c] ++ after, w ≠ 0x0000#16 := by
      simp only [List.mem_append, List.mem_cons, List.not_mem_nil, or_false]
      rintro w ((hb | rfl | rfl | rfl) | ha)
      · exact ne_zero_of_wordsAt hw w hb
      · decide
      · exact hmid
      · exact zext8_ne_zero hc
      · exact ne_zero_of_stringAt hstr w ha
    obtain ⟨t, hnext, hout, hin, -, -, -, -, hrun, -⟩ := exec_puts_completes hs
      (readsFrom_over_keyboard hs hq hw hend hstr) hz (by rw [List.length_append, List.length_append]; exact hd)
    have hchar : (zext8 c).extractLsb' 0 8 = c := (congrFun extractLsb'_eq_lowByte _).trans (lowByte_zext8 c)
    refine ⟨t, hnext, hrun, hin, hout.trans ?_⟩
    simp [hchar]
  · have hread := (congrArg (memRead · s) hr).trans (memRead_kbdr_pending hs hq)
    exact ⟨_, exec_puts_empty hread, rfl, rfl, rfl⟩
  · have hread := (congrArg (memRead · s) hr).trans (memRead_kbdr_empty hno)
    exact ⟨_, exec_puts_empty hread, rfl, rfl, rfl⟩

end Sys2Proof.Machine
end

section
/-! SUPPORT. The parameters (00_scope.md R5), `run` (70_reset_and_hazards.md R209) and the open corners of the loader
(R204). -/

namespace Sys2Proof.Machine

/-! ### What each parameter can change (R5) -/

/-- U9: the parameter chooses between the new and the old R7, and other base registers are the same in both. -/
theorem getReg_jsrr_base (c : Config) (b : Reg) (s : State) :
    getReg b (if c.jsrrLinkFirst = true then link s else s) =
      if b = .r7 ∧ c.jsrrLinkFirst = true then s.pc else getReg b s := by
  cases c.jsrrLinkFirst with
  | false => simp
  | true => simpa using getReg_link b s

/-- Settles O23: JSRR under any parameters is the link and then the jump. -/
theorem jsrrOrderIsTheParameter : Obligations.JsrrOrderIsTheParameter :=
  fun c b s => ⟨rfl, getReg_jsrr_base c b s ▸ transfers_setPc_link _ s⟩

theorem execWith_of_ne (c : Config) {i : Instr} (hj : i ≠ .jsrr .r7) (ht : i ≠ .trap 0x23#8) (s : State) :
    execWith c i s = exec i s := by
  cases i with
  | jsrr b => exact congrArg Host.Outcome.next (jsrrWith_of_ne c (fun e => hj (congrArg Instr.jsrr e)) s)
  | trap v => exact trapWith_of_ne c (fun e => ht (congrArg Instr.trap e)) s
  | _ => rfl

theorem decodeWith_renumbered {c : Config} {w v : Word} (hop : v.extractLsb' 12 4 = c.opcodeRow (w.extractLsb' 12 4))
    (h : v.extractLsb' 0 12 = w.extractLsb' 0 12) : decodeWith c w = decode v := by
  rw [decode_of_opcode hop]
  exact (decodeRow_congr _ h).symm

/-- Settles O56: the parameters of execution occur in JSRR and IN alone, and the opcode numbers in the choice of the row
alone. -/
theorem parametersChangeOnlyWhatTheyName : Obligations.ParametersChangeOnlyWhatTheyName := by
  refine ⟨fun _ _ _ hop h => decodeWith_renumbered hop h, fun c _ s hj ht => execWith_of_ne c hj ht s,
    fun c s hc => ?_, fun c s hp he => ?_⟩
  · show Host.Outcome.next (jsrrWith c .r7 s) = .next (jsrrWith .standard .r7 s)
    rw [jsrrWith, hc]
    rfl
  · have hserv : serviceIn c s = serviceIn .standard s := by
      rw [serviceIn, hp, he]
      rfl
    rw [← execWith_standard, execWith_in, execWith_in, hserv]

/-! ### The run (R209) -/

/-- Some number of core moves within the bound reaches a terminal state, whose snapshot is `r`. -/
def EndsWithin (c : Config) (fuel : Nat) (s : State) (r : RunResult) : Prop :=
  ∃ (k : Nat) (t : State), k ≤ fuel ∧ moves c (List.replicate k .core) s = .next t ∧ t.terminal ∧
    r = ⟨t.run, t.regs, t.pc, t.cond⟩

theorem moves_cores_succ {c : Config} {s t : State} (h : stepWith c s = .next t) (k : Nat) :
    moves c (List.replicate (k + 1) .core) s = moves c (List.replicate k .core) t := by
  rw [List.replicate_succ, moves, move, h]

theorem moves_cores_of_terminal (c : Config) {s : State} (hs : s.terminal) (k : Nat) :
    moves c (List.replicate k .core) s = .next s := by
  induction k with
  | zero => rfl
  | succ k ih => rw [moves_cores_succ (stepWith_terminal c hs), ih]

theorem endsWithin_of_terminal {c : Config} {s : State} (hs : s.terminal) (fuel : Nat) (r : RunResult) :
    EndsWithin c fuel s r ↔ r = snapshot s := by
  refine ⟨?_, fun h => ⟨0, s, Nat.zero_le _, rfl, hs, h⟩⟩
  rintro ⟨k, t, -, hmoves, -, rfl⟩
  rw [moves_cores_of_terminal c hs] at hmoves
  cases hmoves
  rfl

theorem not_endsWithin_zero {c : Config} {s : State} (hs : s.run = .running) (r : RunResult) :
    ¬ EndsWithin c 0 s r := by
  rintro ⟨k, t, hk, hmoves, ht, -⟩
  rw [Nat.le_zero.mp hk] at hmoves
  cases hmoves
  exact ht hs

theorem endsWithin_succ {c : Config} {s t : State} (hs : s.run = .running) (h : stepWith c s = .next t) (fuel : Nat)
    (r : RunResult) : EndsWithin c (fuel + 1) s r ↔ EndsWithin c fuel t r := by
  constructor
  · rintro ⟨k, u, hk, hmoves, hu, hr⟩
    cases k with
    | zero => cases hmoves; exact absurd hs hu
    | succ k =>
      rw [moves_cores_succ h] at hmoves
      exact ⟨k, u, Nat.le_of_succ_le_succ hk, hmoves, hu, hr⟩
  · rintro ⟨k, u, hk, hmoves, hu, hr⟩
    exact ⟨k + 1, u, Nat.succ_le_succ hk, (moves_cores_succ h k).trans hmoves, hu, hr⟩

theorem hostRun_of_terminal (c : Config) {s : State} (hs : s.terminal) (fuel : Nat) :
    hostRun c fuel s = some (snapshot s) := by
  have hcan : ¬ canStep s = true := by simpa [canStep] using hs
  cases fuel <;> rw [hostRun, if_neg hcan]

theorem hostRun_zero (c : Config) {s : State} (hs : s.run = .running) : hostRun c 0 s = none := by
  rw [hostRun, canStep, hs]
  rfl

theorem hostRun_succ {c : Config} {s t : State} (hs : s.run = .running) (h : stepWith c s = .next t) (fuel : Nat) :
    hostRun c (fuel + 1) s = hostRun c fuel t := by
  rw [hostRun, canStep, hs, h]
  rfl

/-- Settles O52, by induction on the bound: a run that has not ended takes a step, and so do the moves. -/
theorem runReturnsTheTerminalSnapshot : Obligations.RunReturnsTheTerminalSnapshot := by
  intro c fuel s r
  change _ ↔ EndsWithin c fuel s r
  induction fuel generalizing s with
  | zero =>
    by_cases hs : s.run = .running
    · simp [hostRun_zero c hs, not_endsWithin_zero hs]
    · rw [hostRun_of_terminal c hs, endsWithin_of_terminal hs, Option.some_inj, eq_comm]
  | succ fuel ih =>
    by_cases hs : s.run = .running
    · obtain ⟨t, ht⟩ := stepWith_answers c s
      rw [hostRun_succ hs ht, endsWithin_succ hs ht, ih]
    · rw [hostRun_of_terminal c hs, endsWithin_of_terminal hs, Option.some_inj, eq_comm]

/-! ### The loader (R204; decision D25) -/

theorem imageWords_of_odd {image : List Byte} (h : image.length % 2 = 1) : imageWords image = none := by
  induction image using imageWords.induct with
  | case1 => simp at h
  | case2 => rfl
  | case3 hi lo rest ws hws ih =>
    have hrest : imageWords rest = none := ih (by rw [List.length_cons, List.length_cons] at h; omega)
    rw [hws] at hrest
    cases hrest
  | case4 hi lo rest hws => rw [imageWords, hws]

/-- Settles O57: each of these images goes to `loadOpen`. -/
theorem loaderDecidesWhatIsLeftOpen : Obligations.LoaderDecidesWhatIsLeftOpen := by
  refine ⟨fun c image s h => ?_, fun c s => rfl, fun c s origin ws h => ?_, fun c images s h => ?_⟩
  · simp only [loadImages, imageWords_of_odd h, loadOpen]
  · have hlong : ¬ origin.toNat + ws.length ≤ memWords := Nat.not_le.mpr h
    simp only [loadImages, imageWords_bigEndian (origin :: ws), if_neg hlong, loadOpen]
  · match images, h with
    | _ :: _ :: _, _ => rfl

end Sys2Proof.Machine
end
